-- ==== Sys2Proof/Word.lean ====
section
/-! DEFINITION. The word types of AQC: a register, a command word and a fixed-point value word are
32-bit words (00_scope.md R5, `VW` = 32; 20_memory.md R27). -/

namespace Sys2Proof

/-- A 32-bit register or bus word (R5, R27); bit 0 is the least significant (R6). -/
abbrev Word := BitVec 32

/-- One byte lane of a register, as a host that addresses bytes sees it (R27). -/
abbrev Byte := BitVec 8

end Sys2Proof
end

