-- ==== Sys2Proof/Config.lean ====
section
/-! DEFINITION. The implementation parameters of AQC (00_scope.md R5). `BASE` is OPEN and stands in
State (`baseBlock`, log entry 1); `CMD_LATENCY` is OPEN and not observable: the model has no time
(R87, log entry 10). The spec leaves no value undetermined (93_implementation_defined.md
section 1), so there is no free value here. -/

namespace Sys2Proof.Config

/-- `FB`: fraction bits of a fixed-point value word, format Q7.24 (R5, R8). -/
@[simp] abbrev fb : Nat := 24

/-- `NMAX`: the largest legal `num_bits`, LZC width and FLP full resolution (R5). -/
@[simp] abbrev nmax : Nat := 24

/-- `NMIN`: the smallest legal `num_bits` or LZC width (R5). -/
@[simp] abbrev nmin : Nat := 2

/-- Size in bytes of the register window; `BASE` is a multiple of it (R26). -/
@[simp] abbrev windowBytes : Nat := 64

end Sys2Proof.Config
end

