-- ==== Sys2Proof/Syntax.lean ====
section
/-! DEFINITION. The commands of AQC, one constructor per row of spec/opcode_table.json
(30_encoding.md R39, R40), and the errors a command can end in (60_exceptions.md R68). -/

namespace Sys2Proof

/-- QuantizationScheme: which levels the bins of a uniform quantizer lie around (R38). -/
inductive Scheme where
  /-- `SCH = 0`: a level at zero. -/
  | midtread
  /-- `SCH = 1`: zero lies between two levels. -/
  | midrise
  deriving DecidableEq, Repr

/-- A command with the arguments its command word carries (R39). Every argument is an unsigned
integer taken as is (R37); the wide operands come from registers (R44). A number that does not fit
its field is ruled out by `Instr.wellFormed` (log entry 12). -/
inductive Instr where
  /-- `UQ.ENC`: uniform encode with `num_bits = nb` (R53). -/
  | uqEnc (nb : Nat) (sch : Scheme)
  /-- `UQ.DEC`: uniform decode with `num_bits = nb` (R55). -/
  | uqDec (nb : Nat) (sch : Scheme)
  /-- `LZC`: leading-zero count with `R = nb` (R59). -/
  | lzc (nb : Nat)
  /-- `FLP.ENC`: floating-point encode with `Rs = rs`, `Rm = rm` (R63). -/
  | flpEnc (rs rm : Nat)
  /-- `FLP.DEC`: floating-point decode with `Rs = rs`, `Rm = rm` (R66). -/
  | flpDec (rs rm : Nat)
  deriving DecidableEq, Repr

/-- The named errors of a command (R68). `BusError` is not one: it is a response of the bus (R79). -/
inductive CommandError where
  /-- A configuration argument is out of range. -/
  | invalidParameter
  /-- An operand is outside its code width. -/
  | domainViolation
  /-- The command word selects no command. -/
  | illegalCommand
  deriving DecidableEq, Repr

end Sys2Proof
end

