-- ==== Sys2Proof/WellFormed.lean ====
section
/-! DEFINITION. Which commands have a command word: each argument must fit its field
(30_encoding.md R37), which is what an assembler checks (R46). A value that fits its field and is
illegal for the operation (`NB = 1`, `RS = 0`) is well formed: the command is selected and ends in
`InvalidParameter` (R41). -/

namespace Sys2Proof

/-- `NB` is 5 bits wide: values 0 to 31 (R37). -/
def nbFits (nb : Nat) : Bool := decide (nb < 32)

/-- `RS` is 3 bits wide: values 0 to 7 (R37). -/
def rsFits (rs : Nat) : Bool := decide (rs < 8)

/-- `RM` is 5 bits wide: values 0 to 31 (R37). -/
def rmFits (rm : Nat) : Bool := decide (rm < 32)

/-- Every argument fits its field (R37, R46). -/
def Instr.wellFormed : Instr → Bool
  | .uqEnc nb _ => nbFits nb
  | .uqDec nb _ => nbFits nb
  | .lzc nb => nbFits nb
  | .flpEnc rs rm => rsFits rs && rmFits rm
  | .flpDec rs rm => rsFits rs && rmFits rm

end Sys2Proof
end

