-- ==== Sys2Proof/Decode.lean ====
section
/-! DEFINITION. Bit fields and byte lanes, the encoding table of 30_encoding.md R40, the decoder
(R41, total: a word no row selects is refused as `IllegalCommand`), the encoder (R37) and the
assembler's check (R46). -/

namespace Sys2Proof

/-- `x[hi:lo]`: bits `hi` down to `lo` of `x`, as an unsigned number (R6). -/
def bitField (x hi lo : Nat) : Nat := (x >>> lo) % 2 ^ (hi + 1 - lo)

/-- Byte lane `j` of a register: bits `[8j+7 : 8j]` (R27). -/
def byteLane (w : Word) (j : Nat) : Byte := w.extractLsb' (8 * j) 8

/-- The register word whose four bytes, at rising addresses, are the arguments: little-endian (R27). -/
def wordOfBytes (b0 b1 b2 b3 : Byte) : Word := b3 ++ b2 ++ b1 ++ b0

/-- The number `SCH` holds for a scheme (R38). -/
def schemeCode : Scheme → Nat
  | .midtread => 0
  | .midrise => 1

/-- The scheme a value of `SCH` selects (R38). -/
def schemeOf (sch : Nat) : Scheme := if sch = 1 then .midrise else .midtread

/-- One row of the table of R40. -/
structure EncodingRow where
  /-- the `match` column -/
  pattern : Word
  /-- the `mask` column -/
  mask : Word
  deriving DecidableEq, Repr

/-- A row selects a word when the word under the mask is the row's pattern (R40). -/
def EncodingRow.selects (row : EncodingRow) (v : Word) : Bool := v &&& row.mask == row.pattern

/-- Row `UQ.ENC` of R40. -/
def uqEncRow : EncodingRow := ⟨0x00000001#32, 0xFFFFE0EF#32⟩
/-- Row `UQ.DEC` of R40. -/
def uqDecRow : EncodingRow := ⟨0x00000002#32, 0xFFFFE0EF#32⟩
/-- Row `LZC` of R40. -/
def lzcRow : EncodingRow := ⟨0x00000003#32, 0xFFFFE0FF#32⟩
/-- Row `FLP.ENC` of R40. -/
def flpEncRow : EncodingRow := ⟨0x00000004#32, 0xE0F8FFFF#32⟩
/-- Row `FLP.DEC` of R40. -/
def flpDecRow : EncodingRow := ⟨0x00000005#32, 0xE0F8FFFF#32⟩

/-- The table of R40, in its order. -/
def encodingRows : List EncodingRow := [uqEncRow, uqDecRow, lzcRow, flpEncRow, flpDecRow]

/-- The row of R40 that a command belongs to. -/
def Instr.row : Instr → EncodingRow
  | .uqEnc _ _ => uqEncRow
  | .uqDec _ _ => uqDecRow
  | .lzc _ => lzcRow
  | .flpEnc _ _ => flpEncRow
  | .flpDec _ _ => flpDecRow

/-- Field `OP` (R37). -/
def opField (v : Word) : Nat := bitField v.toNat 3 0
/-- Field `SCH` (R37). -/
def schField (v : Word) : Nat := bitField v.toNat 4 4
/-- Field `NB` (R37). -/
def nbField (v : Word) : Nat := bitField v.toNat 12 8
/-- Field `RS` (R37). -/
def rsField (v : Word) : Nat := bitField v.toNat 18 16
/-- Field `RM` (R37). -/
def rmField (v : Word) : Nat := bitField v.toNat 28 24

/-- The command a word selects, or `IllegalCommand` (R41, R42). -/
def decode (v : Word) : Except CommandError Instr :=
  if uqEncRow.selects v then .ok (.uqEnc (nbField v) (schemeOf (schField v)))
  else if uqDecRow.selects v then .ok (.uqDec (nbField v) (schemeOf (schField v)))
  else if lzcRow.selects v then .ok (.lzc (nbField v))
  else if flpEncRow.selects v then .ok (.flpEnc (rsField v) (rmField v))
  else if flpDecRow.selects v then .ok (.flpDec (rsField v) (rmField v))
  else .error .illegalCommand

/-- The command in the four bytes of `CMD`, at rising addresses (R27, R41). -/
def decodeBytes (b0 b1 b2 b3 : Byte) : Except CommandError Instr := decode (wordOfBytes b0 b1 b2 b3)

/-- The decoder's reading of an opcode-table word of `nbits` bits; bits above them are 0 (R40). -/
def decodeTableWord (nbits w : Nat) : Option Instr :=
  let v : Word := BitVec.ofNat 32 (w % 2 ^ nbits)
  (decodeBytes (byteLane v 0) (byteLane v 1) (byteLane v 2) (byteLane v 3)).toOption

/-- A command word from its fields: `OP | (SCH << 4) | (NB << 8) | (RS << 16) | (RM << 24)` (R37). -/
def commandWord (op sch nb rs rm : Nat) : Word :=
  BitVec.ofNat 32 (op ||| sch <<< 4 ||| nb <<< 8 ||| rs <<< 16 ||| rm <<< 24)

/-- The command word of a well-formed command; a field the command does not use is 0 (R37, R39, R46). -/
def encode : Instr → Word
  | .uqEnc nb sch => commandWord 1 (schemeCode sch) nb 0 0
  | .uqDec nb sch => commandWord 2 (schemeCode sch) nb 0 0
  | .lzc nb => commandWord 3 0 nb 0 0
  | .flpEnc rs rm => commandWord 4 0 0 rs rm
  | .flpDec rs rm => commandWord 5 0 0 rs rm

/-- The assembler: it refuses an operand that does not fit its field (R46). -/
def assemble (i : Instr) : Option Word := if i.wellFormed then some (encode i) else none

end Sys2Proof
end

