-- ==== Sys2Proof/Machine/State.lean ====
section
/-! DEFINITION. The state of AQC (10_state.md R10), its register names (R13), the accesses a host
and the platform make (00_scope.md R9, 70_reset_and_hazards.md R85), AQC's replies, the reasons a
step can stop, and the state after reset (R83). -/

namespace Sys2Proof.Machine

/-- The named registers of the register map (R13). -/
inductive RegName where
  | id | param | ctrl | status | maxr | opa | opb | cmd | res0 | res1 | res2
  deriving DecidableEq, Repr

/-- The architectural state record: exactly the fields of R10. -/
structure Regs where
  /-- `MAXR`: `max_range` of `UQ.ENC` (R18). -/
  maxr : Word
  /-- `OPA`: operand A (R19). -/
  opa : Word
  /-- `OPB`: operand B (R20). -/
  opb : Word
  /-- `CMD`: the last word written as a command, legal or not (R21). -/
  cmd : Word
  /-- `RES0`: result 0 (R22). -/
  res0 : Word
  /-- `RES1`: result 1 (R22). -/
  res1 : Word
  /-- `RES2`: result 2 (R22). -/
  res2 : Word
  /-- `STATUS.ERR` (R16). -/
  err : BitVec 4
  /-- `STATUS.SAT` (R16). -/
  sat : Bool
  /-- `STATUS.DENORM` (R16). -/
  denorm : Bool
  /-- `STATUS.STICKY` (R17). -/
  sticky : Bool
  deriving DecidableEq, Repr

/-- One input of AQC: an access of its one host (R9, R32) or a change of the platform's reset
input (R85). -/
inductive Event where
  /-- `MemRead(addr, size)`. -/
  | read (addr size : Nat)
  /-- `MemWrite(addr, size, data)`. A write of a size other than 4 is refused whatever its data
  (R28), so one 32-bit word holds the data of every write (log entry 11). -/
  | write (addr size : Nat) (data : Word)
  /-- The platform drives the hardware reset input: asserted or released (R85). -/
  | resetInput (asserted : Bool)
  deriving DecidableEq, Repr

/-- AQC's answer to one access. -/
inductive Reply where
  /-- The word a read returned (R29). -/
  | data (w : Word)
  /-- A write was answered (R30). -/
  | written
  /-- The bus error response of R28 and R79; a read so refused returns no data. -/
  | busError
  deriving DecidableEq, Repr

/-- The machine: the registers of R10, the reset input of R85, and three fields of the MODEL's own
(`baseBlock`, `bus`, `replies`; log entries 1, 2 and 3). -/
structure State where
  /-- The architectural state (R10). -/
  regs : Regs
  /-- The hardware reset input is asserted (R85). -/
  inReset : Bool
  /-- The platform parameter `BASE` divided by 64 (R26); no step changes it. -/
  baseBlock : Nat
  /-- The inputs still to come, oldest first (R32). -/
  bus : List Event
  /-- The answers given so far, oldest first; the words read are the result of a run (R89). -/
  replies : List Reply
  deriving DecidableEq, Repr

/-- Why a step stops. -/
inductive Fault where
  /-- Raised by an access whose address is outside the window: it is not AQC's and the platform
  decides what it does (R26). Safe: AQC gives no response and the model claims nothing of it
  (log entry 5). -/
  | outsideWindow (addr : Nat)
  /-- Raised by an access while the hardware reset input is asserted: AQC answers none (R85;
  93_implementation_defined.md section 1, `stuck`). Safe: the model claims nothing of what the
  platform does then (log entry 6). -/
  | accessInReset
  deriving DecidableEq, Repr

/-- Why an instruction has no meaning. -/
inductive Refusal where
  /-- Raised by an arm of `exec` whose instruction has no meaning yet; no arm is such. Safe. -/
  | notModelled (mnemonic : String)
  deriving DecidableEq, Repr

/-- The registers after a reset (R83): `MAXR` is 1.0, all else is 0. -/
def Regs.reset : Regs where
  maxr := 0x01000000#32
  opa := 0
  opb := 0
  cmd := 0
  res0 := 0
  res1 := 0
  res2 := 0
  err := 0
  sat := false
  denorm := false
  sticky := false

/-- The machine right after reset (R83, R85): reset input released, no input pending, no answer
given. `BASE` is the platform's; here it is 0 (log entry 1). -/
def State.reset : State where
  regs := Regs.reset
  inReset := false
  baseBlock := 0
  bus := []
  replies := []

end Sys2Proof.Machine
end

