-- ==== Sys2Proof/Machine/Flags.lean ====
section
/-! DEFINITION. The flags of `STATUS` (10_state.md R16, R17, R24): the error codes of
60_exceptions.md R68 and the packing of the register that a read returns (20_memory.md R29). -/

namespace Sys2Proof.Machine

/-- `STATUS.ERR` of each error (R68); 0 means that the command completed. -/
def errorCode : CommandError → BitVec 4
  | .invalidParameter => 1
  | .domainViolation => 2
  | .illegalCommand => 3

/-- One flag as a bit. -/
def flagBit (b : Bool) : BitVec 1 := BitVec.ofBool b

/-- `STATUS` as a read returns it: `zext_32({STICKY, 0b00, DENORM, SAT, ERR})` (R29). -/
def statusWord (r : Regs) : Word :=
  (flagBit r.sticky ++ 0#2 ++ flagBit r.denorm ++ flagBit r.sat ++ r.err).setWidth 32

end Sys2Proof.Machine
end

