-- ==== Sys2Proof/Machine/Ops.lean ====
section
/-! DEFINITION. The operations over AQC's registers that commands and accesses share: the register
map (10_state.md R13), reading a register (20_memory.md R29), the register stores of R30, the end of
a command in an error (60_exceptions.md R71, AQC's only form of taking an exception: R74) and the
host's acknowledgement of it (R75, R17), the end of a command in success (R72), and both resets
(70_reset_and_hazards.md R84, R85). -/

namespace Sys2Proof.Machine

/-- `ID` reads this constant (R14). -/
def idWord : Word := 0x51430107#32

/-- `PARAM` reads this constant (R14). -/
def paramWord : Word := 0x00181820#32

/-- The byte offset of a register in the window (R13). -/
def RegName.offset : RegName → Nat
  | .id => 0x00
  | .param => 0x04
  | .ctrl => 0x08
  | .status => 0x0C
  | .maxr => 0x10
  | .opa => 0x14
  | .opb => 0x18
  | .cmd => 0x1C
  | .res0 => 0x20
  | .res1 => 0x24
  | .res2 => 0x28

/-- The register at an offset; `none` is a reserved offset (R13, R23). -/
def regAt (off : Nat) : Option RegName :=
  match off with
  | 0x00 => some .id
  | 0x04 => some .param
  | 0x08 => some .ctrl
  | 0x0C => some .status
  | 0x10 => some .maxr
  | 0x14 => some .opa
  | 0x18 => some .opb
  | 0x1C => some .cmd
  | 0x20 => some .res0
  | 0x24 => some .res1
  | 0x28 => some .res2
  | _ => none

/-- The word a register reads as (R29): `CTRL` and reserved offsets read 0 (R15, R23). -/
def Regs.read (r : Regs) : Option RegName → Word
  | some .id => idWord
  | some .param => paramWord
  | some .ctrl => 0
  | some .status => statusWord r
  | some .maxr => r.maxr
  | some .opa => r.opa
  | some .opb => r.opb
  | some .cmd => r.cmd
  | some .res0 => r.res0
  | some .res1 => r.res1
  | some .res2 => r.res2
  | none => 0

/-- Byte `BASE + off + j` of the window, for a host that addresses bytes (R27). -/
def Regs.byteAt (r : Regs) (off j : Nat) : Byte := byteLane (r.read (regAt off)) j

/-- `reg[MAXR] <- v` (R30). -/
def State.setMaxr (s : State) (v : Word) : State := { s with regs := { s.regs with maxr := v } }

/-- `reg[OPA] <- v` (R30). -/
def State.setOpa (s : State) (v : Word) : State := { s with regs := { s.regs with opa := v } }

/-- `reg[OPB] <- v` (R30). -/
def State.setOpb (s : State) (v : Word) : State := { s with regs := { s.regs with opb := v } }

/-- `reg[CMD] <- v` (R30); the command it starts is `execute`'s. -/
def State.setCmd (s : State) (v : Word) : State := { s with regs := { s.regs with cmd := v } }

/-- What a command that completes delivers: the three result registers (R45) and two flags (R72). -/
structure Completion where
  /-- new `RES0` -/
  res0 : Word
  /-- new `RES1` -/
  res1 : Word
  /-- new `RES2` -/
  res2 : Word
  /-- new `STATUS.SAT` -/
  sat : Bool
  /-- new `STATUS.DENORM` -/
  denorm : Bool
  deriving DecidableEq, Repr

/-- A command completes: all three results and `ERR`, `SAT`, `DENORM` are written, `STICKY` stays
(R72). -/
def State.complete (s : State) (c : Completion) : State :=
  { s with regs := { s.regs with
      res0 := c.res0, res1 := c.res1, res2 := c.res2
      err := 0, sat := c.sat, denorm := c.denorm } }

/-- A command ends in an error: exactly the four flags of `STATUS` are written (R71). -/
def State.raise (s : State) (e : CommandError) : State :=
  { s with regs := { s.regs with
      err := errorCode e, sat := false, denorm := false, sticky := true } }

/-- The host acknowledges errors: it clears `STICKY` and nothing else (R17, R75). AQC has no trap
return (R75); this is all there is of one. -/
def State.clearSticky (s : State) : State := { s with regs := { s.regs with sticky := false } }

/-- The one end of every command: all its checks have run, and all its writes happen here together
(R74, R78). -/
def State.finish (s : State) (r : Except CommandError Completion) : State :=
  match r with
  | .ok c => s.complete c
  | .error e => s.raise e

/-- Soft reset: every field of R10 takes its reset value (R84). -/
def State.softReset (s : State) : State := { s with regs := Regs.reset }

/-- The platform drives the reset input (R85): a release puts the registers in their reset state
(R83). What they hold while the input is asserted no access shows (log entry 7). -/
def State.driveReset (s : State) (asserted : Bool) : State :=
  if asserted then { s with inReset := true }
  else if s.inReset then { s with regs := Regs.reset, inReset := false }
  else s

/-- AQC answers an access. -/
def State.reply (s : State) (a : Reply) : State := { s with replies := s.replies ++ [a] }

/-- Whether an input is the platform's rather than an access of the host. -/
def Event.isResetInput : Event → Bool
  | .resetInput _ => true
  | .read _ _ => false
  | .write _ _ _ => false

/-- The bus error response (R28, R79): no register changes; the fault is recorded and the host
program ends (93_implementation_defined.md section 1; log entry 4). -/
def State.busError (s : State) : State :=
  { s with replies := s.replies ++ [.busError], bus := s.bus.filter Event.isResetInput }

/-- `BASE`, the byte address of the window: a multiple of 64 (R26). -/
def State.base (s : State) : Nat := Config.windowBytes * s.baseBlock

/-- The offset of an address in the window, `none` if the address is not AQC's (R26). -/
def State.windowOffset (s : State) (addr : Nat) : Option Nat :=
  if s.base ≤ addr ∧ addr < s.base + Config.windowBytes then some (addr - s.base) else none

/-- The address of a register on the host bus (R13, R26). -/
def State.address (s : State) (r : RegName) : Nat := s.base + r.offset

/-- The next input is taken off the list; the rest are still to come (R32). -/
def State.withBus (s : State) (rest : List Event) : State := { s with bus := rest }

end Sys2Proof.Machine
end

