-- ==== Sys2Proof/Machine/Operands.lean ====
section
/-! DEFINITION. The number formats and operand checks that commands share: two's-complement and
Q7.24 words (00_scope.md R7, R8), sign and magnitude of a value word (40_uniform_quantizer.md R50),
sign-magnitude codewords (R53, R55), the width checks (R49; 42_floating_point_quantizer.md R61) and
`bitlen` (R6). All arithmetic is on unbounded integers (R6). -/

namespace Sys2Proof.Machine

/-- `sint32(w)`: the integer a word denotes in two's complement (R7). -/
def sint32 (w : Word) : Int := if w.toNat < 2 ^ 31 then (w.toNat : Int) else (w.toNat : Int) - 2 ^ 32

/-- `word32(i)`: the word `i mod 2^32`; also `sext_32` of a signed integer (R7). -/
def word32 (i : Int) : Word := BitVec.ofInt 32 i

/-- `zext_32(v)`: an unsigned number as a word with zero upper bits (R7). -/
def zext32 (v : Nat) : Word := BitVec.ofNat 32 v

/-- `bitlen(x)`: the number of bits of `x` without leading zeros (R6). -/
def bitlen (x : Nat) : Nat := if x = 0 then 0 else Nat.log2 x + 1

/-- `MAXMAG(N)`: the largest magnitude code of an `N`-bit code (R9). -/
def maxMag (n : Nat) : Nat := 2 ^ (n - 1) - 1

/-- The sign of a value word: true for a negative one (R50). -/
def signOf (w : Word) : Bool := decide (sint32 w < 0)

/-- The magnitude `k = abs(sint32(w))` of a value word (R8, R50). -/
def magnitudeOf (w : Word) : Nat := (sint32 w).natAbs

/-- A sign and a magnitude as a codeword: the sign in bit `n - 1` (R53). -/
def codeword (n : Nat) (sign : Bool) (mag : Nat) : Nat := sign.toNat <<< (n - 1) ||| mag

/-- The sign of an `n`-bit codeword: its bit `n - 1` (R55). -/
def codeSign (n c : Nat) : Bool := c.testBit (n - 1)

/-- The magnitude of an `n`-bit codeword: its bits `n - 2` down to 0 (R55); `n` is at least 2. -/
def codeMag (n c : Nat) : Nat := bitField c (n - 2) 0

/-- A magnitude with its sign, as an integer (R53, R55). -/
def signed (sign : Bool) (m : Nat) : Int := if sign then -(m : Int) else (m : Int)

/-- The width check of the uniform operations and of `LZC` (R49, R59). -/
def widthLegal (n : Nat) : Bool := decide (Config.nmin ≤ n) && decide (n ≤ Config.nmax)

/-- The largest scale `E = 2^Rs - 1` (R61). -/
def maxScale (rs : Nat) : Nat := 2 ^ rs - 1

/-- The full resolution `R = 2^Rs - 1 + Rm` (R61). -/
def fullWidth (rs rm : Nat) : Nat := 2 ^ rs - 1 + rm

/-- The configuration check of the floating-point commands (R61). -/
def flpLegal (rs rm : Nat) : Bool :=
  decide (1 ≤ rs) && decide (1 ≤ rm) && decide (fullWidth rs rm ≤ Config.nmax)

end Sys2Proof.Machine
end

