-- ==== Sys2Proof/Machine/LeadingZero.lean ====
section
/-! DEFINITION. The leading-zero counter (41_leading_zero_counter.md R58) and the command `LZC`
(R59). -/

namespace Sys2Proof.Machine

/-- `LZC(mag, R)`: the zeros above the leading one among the `R - 1` magnitude bits (R58). -/
def lzcCount (mag r : Nat) : Nat :=
  if mag = 0 then r - 1 else (r - 2) - (bitlen mag - 1)

/-- `LZC_CMD`: checks, then the count (R59, R45). -/
def leadingZeros (r : Nat) (mag : Word) : Except CommandError Completion :=
  if widthLegal r = false then .error .invalidParameter
  else if 2 ^ (r - 1) ≤ mag.toNat then .error .domainViolation
  else
    .ok { res0 := zext32 (lzcCount mag.toNat r), res1 := 0, res2 := 0, sat := false, denorm := false }

/-- `LZC` (R59): `magnitude = reg[OPA]` (R44). -/
def execLzc (nb : Nat) (s : State) : Host.Outcome State Fault Refusal :=
  .next (s.finish (leadingZeros nb s.regs.opa))

end Sys2Proof.Machine
end

