-- ==== Sys2Proof/Machine/Uniform.lean ====
section
/-! DEFINITION. The uniform quantizer: bins, saturation and reconstruction (40_uniform_quantizer.md
R51, R52, R54), and the commands `UQ.ENC` (R53) and `UQ.DEC` (R55). -/

namespace Sys2Proof.Machine

/-- `UQE_Q`: the bin of a magnitude before clipping (R52). -/
def uqeBin (k n : Nat) (sch : Scheme) : Nat :=
  match sch with
  | .midrise => (k <<< (n - 1)) >>> Config.fb
  | .midtread => ((2 ^ n - 1) * k + 2 ^ Config.fb) >>> (Config.fb + 1)

/-- `UQE_MAG`: the magnitude code and whether it saturated (R51). -/
def uqeMag (k : Nat) (mr : Int) (n : Nat) (sch : Scheme) : Nat × Bool :=
  if mr ≤ (k : Int) then (maxMag n, true)
  else
    let q := uqeBin k n sch
    if maxMag n < q then (maxMag n, true) else (q, false)

/-- `UQD_MAG`: the magnitude of the value word a magnitude code reconstructs to (R54). -/
def uqdMag (m n : Nat) (sch : Scheme) : Nat :=
  match sch with
  | .midrise => (2 * m + 1) <<< (Config.fb - n)
  | .midtread => (m * 2 ^ (Config.fb + 2) + (2 ^ n - 1)) / (2 ^ (n + 1) - 2)

/-- `UQ_ENC`: checks, then the results of a uniform encode (R53, R45). -/
def uqEncode (n : Nat) (sch : Scheme) (value maxRange : Word) : Except CommandError Completion :=
  if widthLegal n = false then .error .invalidParameter
  else if sint32 maxRange ≤ 0 then .error .invalidParameter
  else
    let sign := signOf value
    let mag := uqeMag (magnitudeOf value) (sint32 maxRange) n sch
    .ok { res0 := zext32 (codeword n sign mag.1)
          res1 := word32 (signed sign mag.1)
          res2 := zext32 mag.1
          sat := mag.2
          denorm := false }

/-- `UQ_DEC`: checks, then the results of a uniform decode (R55, R45). -/
def uqDecode (n : Nat) (sch : Scheme) (code : Word) : Except CommandError Completion :=
  if widthLegal n = false then .error .invalidParameter
  else if 2 ^ n ≤ code.toNat then .error .domainViolation
  else
    let d := uqdMag (codeMag n code.toNat) n sch
    .ok { res0 := word32 (signed (codeSign n code.toNat) d)
          res1 := 0
          res2 := 0
          sat := false
          denorm := false }

/-- `UQ.ENC` (R53): `value = reg[OPA]`, `max_range = reg[MAXR]` (R44). -/
def execUqEnc (nb : Nat) (sch : Scheme) (s : State) : Host.Outcome State Fault Refusal :=
  .next (s.finish (uqEncode nb sch s.regs.opa s.regs.maxr))

/-- `UQ.DEC` (R55): `codeword = reg[OPA]` (R44). -/
def execUqDec (nb : Nat) (sch : Scheme) (s : State) : Host.Outcome State Fault Refusal :=
  .next (s.finish (uqDecode nb sch s.regs.opa))

end Sys2Proof.Machine
end

