-- ==== Sys2Proof/Machine/FloatingPoint.lean ====
section
/-! DEFINITION. The floating-point quantizer: normalization (42_floating_point_quantizer.md R62),
reconstruction of the codeword (R64, and the source's steps read literally, R65), and the commands
`FLP.ENC` (R63) and `FLP.DEC` (R66). -/

namespace Sys2Proof.Machine

/-- `FLPE`: the scale and the mantissa of an `R`-bit codeword `c` (R62). -/
def flpNormalize (c rs rm : Nat) : Nat × Nat :=
  let r := fullWidth rs rm
  let e := maxScale rs
  let s := (codeSign r c).toNat
  let a := codeMag r c
  let z := lzcCount a r
  if z < e then
    let shift := r - z - rm - 1
    (e - z, s <<< (rm - 1) ||| (((2 ^ (rm - 1) - 1) <<< shift &&& a) >>> shift))
  else (0, s <<< (rm - 1) ||| a)

/-- The magnitude `M` of `FLPD_CODE` (R64). -/
def flpMagnitude (scale mantissa rm : Nat) : Nat :=
  let ml := mantissa &&& (2 ^ (rm - 1) - 1)
  if scale = 0 then ml
  else
    let p := rm + scale - 2
    let m := 1 <<< p ||| ml <<< (scale - 1)
    if 2 ≤ scale then m ||| 1 <<< (scale - 2) else m

/-- `FLPD_CODE`: the `R`-bit codeword a scale and a mantissa stand for (R64). -/
def flpCode (scale mantissa rs rm : Nat) : Nat :=
  (mantissa.testBit (rm - 1)).toNat <<< (fullWidth rs rm - 1) ||| flpMagnitude scale mantissa rm

/-- The source's steps 2 to 5 read literally on integers, with their marker bit (R65). -/
def flpMarkedCode (scale mantissa rs rm : Nat) : Nat :=
  let r := fullWidth rs rm
  let code := 1 <<< (2 ^ rs - 1 - scale)
  let code := if scale ≠ 0 then code <<< 1 ||| 1 else code
  let code := code <<< (rm - 1) ||| (mantissa &&& (2 ^ (rm - 1) - 1))
  if 1 < scale then
    let padded := code <<< 1 ||| 1
    padded <<< (r - bitlen padded)
  else code

/-- The magnitude of the literal reading: step 6's mask removes the marker (R65). No command uses
it; R65 says that it is the magnitude of R64. -/
def flpMagnitudeLiteral (scale mantissa rs rm : Nat) : Nat :=
  flpMarkedCode scale mantissa rs rm &&& (2 ^ (fullWidth rs rm - 1) - 1)

/-- `FLP_ENC`: checks, then the results of a floating-point encode; `max_range` is the constant
1.0, not `MAXR` (R63, R45). -/
def flpEncode (rs rm : Nat) (value : Word) : Except CommandError Completion :=
  if flpLegal rs rm = false then .error .invalidParameter
  else
    let r := fullWidth rs rm
    let mag := uqeMag (magnitudeOf value) (2 ^ Config.fb) r .midtread
    let c := codeword r (signOf value) mag.1
    let code := flpNormalize c rs rm
    .ok { res0 := zext32 code.1
          res1 := zext32 code.2
          res2 := zext32 c
          sat := mag.2
          denorm := code.1 == 0 }

/-- `FLP_DEC`: checks, then the results of a floating-point decode (R66, R45). -/
def flpDecode (rs rm : Nat) (scale mantissa : Word) : Except CommandError Completion :=
  if flpLegal rs rm = false then .error .invalidParameter
  else if 2 ^ rs - 1 < scale.toNat then .error .domainViolation
  else if 2 ^ rm - 1 < mantissa.toNat then .error .domainViolation
  else
    let r := fullWidth rs rm
    let code := flpCode scale.toNat mantissa.toNat rs rm
    let d := uqdMag (codeMag r code) r .midtread
    .ok { res0 := word32 (signed (codeSign r code) d)
          res1 := zext32 code
          res2 := 0
          sat := false
          denorm := scale.toNat == 0 }

/-- `FLP.ENC` (R63): `value = reg[OPA]` (R44). -/
def execFlpEnc (rs rm : Nat) (s : State) : Host.Outcome State Fault Refusal :=
  .next (s.finish (flpEncode rs rm s.regs.opa))

/-- `FLP.DEC` (R66): `scale = reg[OPA]`, `mantissa = reg[OPB]` (R44). -/
def execFlpDec (rs rm : Nat) (s : State) : Host.Outcome State Fault Refusal :=
  .next (s.finish (flpDecode rs rm s.regs.opa s.regs.opb))

end Sys2Proof.Machine
end

