-- ==== Sys2Proof/Machine/Dispatch.lean ====
section
/-! DEFINITION. One arm per command of AQC (30_encoding.md R39, R41). -/

namespace Sys2Proof.Machine

def exec (i : Instr) (s : State) : Host.Outcome State Fault Refusal :=
  match i with
  | .uqEnc nb sch => Sys2Proof.Machine.execUqEnc nb sch s
  | .uqDec nb sch => Sys2Proof.Machine.execUqDec nb sch s
  | .lzc nb => Sys2Proof.Machine.execLzc nb s
  | .flpEnc rs rm => Sys2Proof.Machine.execFlpEnc rs rm s
  | .flpDec rs rm => Sys2Proof.Machine.execFlpDec rs rm s

end Sys2Proof.Machine
end

