-- ==== Sys2Proof/Machine/Access.lean ====
section
/-! DEFINITION. What one input does: the routing of an access (20_memory.md R26, R28;
70_reset_and_hazards.md R85), a read (R29), a write (R30), the execution of a command word
(30_encoding.md R41), and the host's store of a command word. -/

namespace Sys2Proof.Machine

/-- `Execute(v)`: the command the word selects runs, or `IllegalCommand` is raised (R41, R42). -/
def execute (v : Word) (s : State) : Host.Outcome State Fault Refusal :=
  match decode v with
  | .ok i => exec i s
  | .error e => .next (s.raise e)

/-- What becomes of an access before any register is looked at. -/
inductive Route where
  /-- AQC answers no access: its reset input is asserted (R85). -/
  | inReset
  /-- The address is not AQC's (R26). -/
  | outside
  /-- Inside the window, of a wrong size or alignment (R28, R79). -/
  | refused
  /-- Served at this offset (R28). -/
  | served (off : Nat)
  deriving DecidableEq, Repr

/-- The route of an access of `size` bytes at `addr` (R26, R28, R85). Its first byte decides
whether it is inside the window (log entry 8). -/
def route (s : State) (addr size : Nat) : Route :=
  if s.inReset then .inReset
  else
    match s.windowOffset addr with
    | none => .outside
    | some off => if size = 4 ∧ off % 4 = 0 then .served off else .refused

/-- `MemWrite(BASE + off, 4, v)` on the registers (R30). -/
def writeRegister (r : Option RegName) (v : Word) (s : State) : Host.Outcome State Fault Refusal :=
  match r with
  | some .ctrl => .next (if v.getLsbD 0 then s.softReset else s)
  | some .status => .next (if v.getLsbD 8 then s.clearSticky else s)
  | some .maxr => .next (s.setMaxr v)
  | some .opa => .next (s.setOpa v)
  | some .opb => .next (s.setOpb v)
  | some .cmd => execute v (s.setCmd v)
  | some .id => .next s
  | some .param => .next s
  | some .res0 => .next s
  | some .res1 => .next s
  | some .res2 => .next s
  | none => .next s

/-- A host read (R28, R29). -/
def hostRead (addr size : Nat) (s : State) : Host.Outcome State Fault Refusal :=
  match route s addr size with
  | .inReset => .fault .accessInReset
  | .outside => .fault (.outsideWindow addr)
  | .refused => .next s.busError
  | .served off => .next (s.reply (.data (s.regs.read (regAt off))))

/-- A host write (R28, R30). The answer is recorded with the write's effect, as one step (R78). -/
def hostWrite (addr size : Nat) (v : Word) (s : State) : Host.Outcome State Fault Refusal :=
  match route s addr size with
  | .inReset => .fault .accessInReset
  | .outside => .fault (.outsideWindow addr)
  | .refused => .next s.busError
  | .served off => writeRegister (regAt off) v (s.reply .written)

/-- One input, already taken off the list (R32, R85). -/
def answer (e : Event) (s : State) : Host.Outcome State Fault Refusal :=
  match e with
  | .read addr size => hostRead addr size s
  | .write addr size v => hostWrite addr size v s
  | .resetInput asserted => .next (s.driveReset asserted)

/-- The host's store of a command word in `CMD`, by its four bytes in address order (R27, R47). -/
def State.commandStore (s : State) (v : Word) : Event :=
  .write (s.address .cmd) 4 (wordOfBytes (byteLane v 0) (byteLane v 1) (byteLane v 2) (byteLane v 3))

end Sys2Proof.Machine
end

