-- ==== Sys2Proof/Machine/Step.lean ====
section
/-! DEFINITION. One step of AQC: the oldest pending input is taken and answered whole before the
next (20_memory.md R32). With no input pending AQC idles: it never stops, hangs or halts
(70_reset_and_hazards.md R89). -/

namespace Sys2Proof.Machine

/-- One step (R32, R89). -/
def step (s : State) : Host.Outcome State Fault Refusal :=
  match s.bus with
  | [] => .next s
  | e :: rest => answer e (s.withBus rest)

/-- The state in which the very next step runs the command word `w`: AQC executes a word only when
a host stores it in `CMD` (R11, R34), so that store becomes the oldest pending input, and the reset
input is released so that AQC answers it (R85). Log entry 2. -/
def State.withFetchWord (s : State) (nbits w : Nat) : State :=
  { s with
      inReset := false
      bus := s.commandStore (BitVec.ofNat 32 (w % 2 ^ nbits)) :: s.bus }

end Sys2Proof.Machine
end

