-- ==== Sys2Proof/Machine/HostProgram.lean ====
section
/-! DEFINITION. Host programs and their pseudo-instructions (30_encoding.md R47): lists of accesses
for a window at the `BASE` of a state, and the result of a run (70_reset_and_hazards.md R89). -/

namespace Sys2Proof.Machine

/-- `st.w NAME, imm32` (R47). -/
def stW (s : State) (r : RegName) (v : Word) : Event := .write (s.address r) 4 v

/-- `ld.w NAME` (R47). -/
def ldW (s : State) (r : RegName) : Event := .read (s.address r) 4

/-- `cmd <command>` (R47). -/
def cmdProgram (s : State) (i : Instr) : List Event := [stW s .cmd (encode i)]

/-- `clrerr` (R47). -/
def clrerrProgram (s : State) : List Event := [stW s .status 0x00000100#32]

/-- `srst` (R47). -/
def srstProgram (s : State) : List Event := [stW s .ctrl 0x00000001#32]

/-- `uqenc N, scheme, v` (R47). -/
def uqencProgram (s : State) (n : Nat) (sch : Scheme) (v : Word) : List Event :=
  stW s .opa v :: cmdProgram s (.uqEnc n sch)

/-- `uqdec N, scheme, c` (R47). -/
def uqdecProgram (s : State) (n : Nat) (sch : Scheme) (c : Word) : List Event :=
  stW s .opa c :: cmdProgram s (.uqDec n sch)

/-- `flpenc Rs, Rm, v` (R47). -/
def flpencProgram (s : State) (rs rm : Nat) (v : Word) : List Event :=
  stW s .opa v :: cmdProgram s (.flpEnc rs rm)

/-- `flpdec Rs, Rm, sc, m` (R47). -/
def flpdecProgram (s : State) (rs rm : Nat) (sc m : Word) : List Event :=
  stW s .opa sc :: stW s .opb m :: cmdProgram s (.flpDec rs rm)

/-- The words that reads returned, oldest first: with the final state, the result of a run (R89). -/
def State.wordsRead (s : State) : List Word :=
  s.replies.filterMap fun a =>
    match a with
    | .data w => some w
    | .written => none
    | .busError => none

end Sys2Proof.Machine
end

