-- ==== Sys2Proof/Safety.lean ====
section
/-! DEFINITION. What the statements about AQC speak of: the invariants of its registers
(10_state.md R16, R24; 40_uniform_quantizer.md R57; 42_floating_point_quantizer.md R62, R64) and
the host programs that use the window as the spec asks (20_memory.md R28; 30_encoding.md R47). -/

namespace Sys2Proof.Machine

/-- The word selects an encode command, the only commands that can saturate (R16). -/
def selectsEncode (v : Word) : Bool :=
  match decode v with
  | .ok (.uqEnc _ _) => true
  | .ok (.flpEnc _ _) => true
  | .ok (.uqDec _ _) => false
  | .ok (.lzc _) => false
  | .ok (.flpDec _ _) => false
  | .error _ => false

/-- The word selects a floating-point command, the only commands with a denormalized path (R16). -/
def selectsFloating (v : Word) : Bool :=
  match decode v with
  | .ok (.flpEnc _ _) => true
  | .ok (.flpDec _ _) => true
  | .ok (.uqEnc _ _) => false
  | .ok (.uqDec _ _) => false
  | .ok (.lzc _) => false
  | .error _ => false

/-- The word selects some command (R40). -/
def selectsCommand (v : Word) : Bool :=
  match decode v with
  | .ok _ => true
  | .error _ => false

/-- `STATUS` tells the outcome of the command word that `CMD` holds: which codes `ERR` takes (R16,
R68), an error clears `SAT` and `DENORM` (R71), which commands set these two (R16, R24), and an
illegal word is the one reason for code 3 (R42). `CMD` = 0 with `ERR` = 0 is the reset state
(R83). -/
def Regs.StatusFits (r : Regs) : Prop :=
  r.err.toNat ≤ 3 ∧
  (r.err ≠ 0 → r.sat = false ∧ r.denorm = false) ∧
  (r.sat = true → selectsEncode r.cmd = true ∧ r.denorm = false) ∧
  (r.denorm = true → selectsFloating r.cmd = true) ∧
  (r.err = 1 → selectsCommand r.cmd = true) ∧
  (r.err = 2 → selectsCommand r.cmd = true ∧ selectsEncode r.cmd = false) ∧
  (r.err = 3 → selectsCommand r.cmd = false) ∧
  (r.err = 0 → selectsCommand r.cmd = true ∨ r.cmd = 0)

/-- Every result fits 24 bits and a sign: codes are at most `NMAX` bits wide (R5, R57, R62, R64)
and decoded values are below 1.0 in magnitude (R54). -/
def Regs.ResultsFit (r : Regs) : Prop :=
  (sint32 r.res0).natAbs < 2 ^ 24 ∧ (sint32 r.res1).natAbs < 2 ^ 24 ∧ r.res2.toNat < 2 ^ 24

/-- The invariant that every step keeps. -/
def State.Consistent (s : State) : Prop := s.regs.StatusFits ∧ s.regs.ResultsFit

/-- An access that AQC serves at a window base: aligned, 4 bytes, inside the window (R28). -/
def Event.orderly (base : Nat) : Event → Bool
  | .read addr size =>
    decide (size = 4) && decide (addr % 4 = 0) && decide (base ≤ addr) && decide (addr < base + 64)
  | .write addr size _ =>
    decide (size = 4) && decide (addr % 4 = 0) && decide (base ≤ addr) && decide (addr < base + 64)
  | .resetInput _ => false

/-- An orderly read: an access without any effect (R31). -/
def Event.orderlyRead (base : Nat) (e : Event) : Bool :=
  match e with
  | .read _ _ => e.orderly base
  | .write _ _ _ => false
  | .resetInput _ => false

/-- The offset in the window that a read is of. -/
def Event.readOffset (base : Nat) : Event → Nat
  | .read addr _ => addr - base
  | .write _ _ _ => 0
  | .resetInput _ => 0

/-- An orderly access that gives register `r` no new value by itself: any read, and any write but one
of `r` and one of `CTRL` with bit 0 set, which is a soft reset (R15, R30). -/
def Event.leaves (s : State) (r : RegName) (e : Event) : Bool :=
  e.orderly s.base &&
    match e with
    | .read _ _ => true
    | .write addr _ v =>
      decide (addr ≠ s.address r) && !(decide (addr = s.address .ctrl) && v.getLsbD 0)
    | .resetInput _ => false

/-- The pending inputs are a host program that uses the window as R28 asks, and the reset input is
released. -/
def State.Orderly (s : State) : Prop := s.inReset = false ∧ ∀ e ∈ s.bus, e.orderly s.base = true

/-- The next input resets the registers: the soft reset of R84 or the release of the hardware
reset input (R85). The assertion of that input is not here: in this model it leaves the registers
until the release, log entry 7. -/
def State.ResetsNext (s : State) : Prop :=
  (s.inReset = false ∧ ∃ v rest, s.bus = .write (s.address .ctrl) 4 v :: rest ∧ v.getLsbD 0 = true) ∨
  (s.inReset = true ∧ ∃ rest, s.bus = .resetInput false :: rest)

/-- The next input is a served write of `v` to a register (R30). -/
def State.WritesNext (s : State) (r : RegName) (v : Word) : Prop :=
  s.inReset = false ∧ ∃ rest, s.bus = .write (s.address r) 4 v :: rest

/-- The column "`InvalidParameter` when" of R70. -/
def parameterError (i : Instr) (r : Regs) : Prop :=
  match i with
  | .uqEnc nb _ => nb < 2 ∨ 24 < nb ∨ r.maxr.toInt ≤ 0
  | .uqDec nb _ => nb < 2 ∨ 24 < nb
  | .lzc nb => nb < 2 ∨ 24 < nb
  | .flpEnc rs rm => rs < 1 ∨ rm < 1 ∨ 24 < 2 ^ rs - 1 + rm
  | .flpDec rs rm => rs < 1 ∨ rm < 1 ∨ 24 < 2 ^ rs - 1 + rm

/-- The column "`DomainViolation` when" of R70. -/
def domainError (i : Instr) (r : Regs) : Prop :=
  match i with
  | .uqEnc _ _ => False
  | .uqDec nb _ => 2 ^ nb ≤ r.opa.toNat
  | .lzc nb => 2 ^ (nb - 1) ≤ r.opa.toNat
  | .flpEnc _ _ => False
  | .flpDec rs rm => 2 ^ rs - 1 < r.opa.toNat ∨ 2 ^ rm - 1 < r.opb.toNat

end Sys2Proof.Machine
end

