-- ==== Sys2Proof/Certificates/Slice0/Obligations.lean ====
section
/-! DEFINITION. The statements about AQC for the provers, in the order of OBLIGATIONS.json: the
encoding, the step, what each command does, the laws of the codes, and the registers under host
accesses and resets. -/

open Sys2Proof Sys2Proof.Machine

/-! ### Encoding (30_encoding.md) -/

/-- Decoding the word of a well-formed command gives the command back (R37, R40, R46). -/
def Obligations.DecodeOfEncodeIsTheCommand : Prop :=
  ∀ i : Instr, i.wellFormed = true → decode (encode i) = .ok i

/-- A word that selects a command is that command's own word: decoding drops no bit (R37, R39). -/
def Obligations.EncodeOfDecodeIsTheWord : Prop :=
  ∀ (v : Word) (i : Instr), decode v = .ok i → i.wellFormed = true ∧ encode i = v

/-- Which words are illegal and what such a word does (R42). -/
def Obligations.IllegalWordsAreExactlyThese : Prop :=
  (∀ v : Word, decode v = .error .illegalCommand ↔
    (let op := v.extractLsb' 0 4
     op = 0 ∨ 6 ≤ op.toNat ∨
     v.extractLsb' 5 3 ≠ 0 ∨ v.extractLsb' 13 3 ≠ 0 ∨ v.extractLsb' 19 5 ≠ 0 ∨
     v.extractLsb' 29 3 ≠ 0 ∨
     ((op = 1 ∨ op = 2 ∨ op = 3) ∧ (v.extractLsb' 16 3 ≠ 0 ∨ v.extractLsb' 24 5 ≠ 0)) ∨
     ((op = 4 ∨ op = 5) ∧ v.extractLsb' 8 5 ≠ 0) ∨
     ((op = 3 ∨ op = 4 ∨ op = 5) ∧ v.extractLsb' 4 1 ≠ 0))) ∧
  (∀ (v : Word) (s : State), decode v = .error .illegalCommand →
    execute v s = .next { s with regs := { s.regs with
      err := 3, sat := false, denorm := false, sticky := true } }) ∧
  Regs.reset.cmd = 0 ∧ decode 0 = .error .illegalCommand ∧ Regs.reset.err = 0 ∧
  Regs.reset.sticky = false

/-- The rows of R40: match, mask and fields of each command; at most one row selects a word. -/
def Obligations.RowsSelectByMatchAndMask : Prop :=
  (∀ v : Word,
    let nb := (v.extractLsb' 8 5).toNat
    let sch := if v.getLsbD 4 then Scheme.midrise else Scheme.midtread
    let rs := (v.extractLsb' 16 3).toNat
    let rm := (v.extractLsb' 24 5).toNat
    (v &&& 0xFFFFE0EF#32 = 0x00000001#32 ↔ decode v = .ok (.uqEnc nb sch)) ∧
    (v &&& 0xFFFFE0EF#32 = 0x00000002#32 ↔ decode v = .ok (.uqDec nb sch)) ∧
    (v &&& 0xFFFFE0FF#32 = 0x00000003#32 ↔ decode v = .ok (.lzc nb)) ∧
    (v &&& 0xE0F8FFFF#32 = 0x00000004#32 ↔ decode v = .ok (.flpEnc rs rm)) ∧
    (v &&& 0xE0F8FFFF#32 = 0x00000005#32 ↔ decode v = .ok (.flpDec rs rm))) ∧
  (∀ (v : Word) (a b : EncodingRow), a ∈ encodingRows → b ∈ encodingRows →
    a.selects v = true → b.selects v = true → a = b)

/-- The dispatch of R41: a word runs the command its row names, or raises `IllegalCommand`; a field
value that is illegal for the operation still selects the command, which raises
`InvalidParameter`. -/
def Obligations.ExecuteFollowsTheDispatch : Prop :=
  (∀ (v : Word) (s : State),
    let nb := (v.extractLsb' 8 5).toNat
    let sch := if v.getLsbD 4 then Scheme.midrise else Scheme.midtread
    let rs := (v.extractLsb' 16 3).toNat
    let rm := (v.extractLsb' 24 5).toNat
    execute v s =
      if v &&& 0xFFFFE0EF#32 = 0x00000001#32 then exec (.uqEnc nb sch) s
      else if v &&& 0xFFFFE0EF#32 = 0x00000002#32 then exec (.uqDec nb sch) s
      else if v &&& 0xFFFFE0FF#32 = 0x00000003#32 then exec (.lzc nb) s
      else if v &&& 0xE0F8FFFF#32 = 0x00000004#32 then exec (.flpEnc rs rm) s
      else if v &&& 0xE0F8FFFF#32 = 0x00000005#32 then exec (.flpDec rs rm) s
      else .next { s with regs := { s.regs with
        err := 3, sat := false, denorm := false, sticky := true } }) ∧
  (∀ (i : Instr) (s : State), i.wellFormed = true → parameterError i s.regs →
    decode (encode i) = .ok i ∧
    exec i s = .next { s with regs := { s.regs with
      err := 1, sat := false, denorm := false, sticky := true } })

/-- The words R46 writes out decode to the commands it names, and so do the rows' bit strings with
all field bits 0 or 1. -/
def Obligations.SampleWordsDecode : Prop :=
  decode 0x00000801#32 = .ok (.uqEnc 8 .midtread) ∧
  decode 0x00000811#32 = .ok (.uqEnc 8 .midrise) ∧
  decode 0x00000812#32 = .ok (.uqDec 8 .midrise) ∧
  decode 0x00000C03#32 = .ok (.lzc 12) ∧
  decode 0x05030004#32 = .ok (.flpEnc 3 5) ∧
  decode 0x05030005#32 = .ok (.flpDec 3 5) ∧
  decode 0b00000000000000000001111100010001#32 = .ok (.uqEnc 31 .midrise) ∧
  decode 0b00011111000001110000000000000101#32 = .ok (.flpDec 7 31)

/-! ### The step (20_memory.md R30, R32) -/

/-- When the next access stores in `CMD` a word that selects `i`, the step is `exec` of `i` at the
state in which that store has been answered and `CMD` holds the word (R30, R41). -/
def Obligations.StepRunsTheDecodedCommand : Prop :=
  ∀ (s : State) (v : Word) (i : Instr) (rest : List Event),
    s.inReset = false → s.bus = .write (64 * s.baseBlock + 0x1C) 4 v :: rest →
    decode v = .ok i →
    i.wellFormed = true ∧
    step s = exec i { s with
      regs := { s.regs with cmd := v }, bus := rest, replies := s.replies ++ [.written] }

/-- Any well-formed command can be the first one after reset (R86): its word, stored in `CMD`, runs
it at the reset state. That a program comes from outside is the model's convention, log entry 2. -/
def Obligations.AnyCommandRunsFirstAfterReset : Prop :=
  ∀ i : Instr, i.wellFormed = true →
    decodeTableWord 32 (encode i).toNat = some i ∧
    step (State.reset.withFetchWord 32 (encode i).toNat) =
      exec i { State.reset with
        regs := { Regs.reset with cmd := encode i }, replies := [.written] }

/-! ### What each command does -/

/-- `UQ.ENC` with a legal width and range completes with the results of R50 to R53 and changes
nothing else. -/
def Obligations.UqEncResult : Prop :=
  ∀ (s : State) (n : Nat) (sch : Scheme), 2 ≤ n → n ≤ 24 → 0 < s.regs.maxr.toInt →
    let k : Nat := s.regs.opa.toInt.natAbs
    let neg := decide (s.regs.opa.toInt < 0)
    let top : Nat := 2 ^ (n - 1) - 1
    let q : Nat :=
      match sch with
      | .midrise => 2 ^ (n - 1) * k / 2 ^ 24
      | .midtread => ((2 ^ n - 1) * k + 2 ^ 24) / 2 ^ 25
    let sat := decide (s.regs.maxr.toInt ≤ k ∨ top < q)
    let mag : Nat := if sat then top else q
    exec (.uqEnc n sch) s = .next { s with regs := { s.regs with
      res0 := BitVec.ofNat 32 ((if neg then 2 ^ (n - 1) else 0) + mag)
      res1 := BitVec.ofInt 32 (if neg then -(mag : Int) else (mag : Int))
      res2 := BitVec.ofNat 32 mag
      err := 0, sat := sat, denorm := false } }

/-- `UQ.DEC` with a legal width and a codeword of that width completes with the results of R54 and
R55 and changes nothing else. -/
def Obligations.UqDecResult : Prop :=
  ∀ (s : State) (n : Nat) (sch : Scheme), 2 ≤ n → n ≤ 24 → s.regs.opa.toNat < 2 ^ n →
    let m : Nat := s.regs.opa.toNat % 2 ^ (n - 1)
    let neg := decide (2 ^ (n - 1) ≤ s.regs.opa.toNat)
    let d : Nat :=
      match sch with
      | .midrise => (2 * m + 1) * 2 ^ (24 - n)
      | .midtread => (m * 2 ^ 26 + (2 ^ n - 1)) / (2 ^ (n + 1) - 2)
    exec (.uqDec n sch) s = .next { s with regs := { s.regs with
      res0 := BitVec.ofInt 32 (if neg then -(d : Int) else (d : Int))
      res1 := 0, res2 := 0
      err := 0, sat := false, denorm := false } }

/-- `LZC` with a legal width and a magnitude of that width completes with the count of R58: the
leading one, if there is one, stands at bit `r - 2 - z`. Nothing else changes (R59). -/
def Obligations.LzcResult : Prop :=
  ∀ (s : State) (r : Nat), 2 ≤ r → r ≤ 24 → s.regs.opa.toNat < 2 ^ (r - 1) →
    ∃ z : Nat,
      exec (.lzc r) s = .next { s with regs := { s.regs with
        res0 := BitVec.ofNat 32 z, res1 := 0, res2 := 0
        err := 0, sat := false, denorm := false } } ∧
      z ≤ r - 1 ∧ z < 2 ^ 5 ∧
      (s.regs.opa = 0 → z = r - 1) ∧
      (s.regs.opa ≠ 0 → z ≤ r - 2 ∧ s.regs.opa.toNat.testBit (r - 2 - z) = true ∧
        ∀ j, r - 2 - z < j → j ≤ r - 2 → s.regs.opa.toNat.testBit j = false)

/-- `FLP.ENC` on a value whose magnitude code fits `rm - 1` bits: the denormalized path of R62 and
R63. Nothing else changes. -/
def Obligations.FlpEncDenormalizedResult : Prop :=
  ∀ (s : State) (rs rm : Nat), 1 ≤ rs → 1 ≤ rm → 2 ^ rs - 1 + rm ≤ 24 →
    let r : Nat := 2 ^ rs - 1 + rm
    let k : Nat := s.regs.opa.toInt.natAbs
    let neg := decide (s.regs.opa.toInt < 0)
    let a : Nat := if 2 ^ 24 ≤ k then 2 ^ (r - 1) - 1 else ((2 ^ r - 1) * k + 2 ^ 24) / 2 ^ 25
    a < 2 ^ (rm - 1) →
    exec (.flpEnc rs rm) s = .next { s with regs := { s.regs with
      res0 := 0
      res1 := BitVec.ofNat 32 ((if neg then 2 ^ (rm - 1) else 0) + a)
      res2 := BitVec.ofNat 32 ((if neg then 2 ^ (r - 1) else 0) + a)
      err := 0, sat := false, denorm := true } }

/-- `FLP.ENC` on a value whose magnitude code has its leading one at bit `rm - 2 + scale`: the
normalized path of R62 and R63. Nothing else changes. -/
def Obligations.FlpEncNormalizedResult : Prop :=
  ∀ (s : State) (rs rm scale : Nat), 1 ≤ rs → 1 ≤ rm → 2 ^ rs - 1 + rm ≤ 24 →
    let r : Nat := 2 ^ rs - 1 + rm
    let k : Nat := s.regs.opa.toInt.natAbs
    let neg := decide (s.regs.opa.toInt < 0)
    let a : Nat := if 2 ^ 24 ≤ k then 2 ^ (r - 1) - 1 else ((2 ^ r - 1) * k + 2 ^ 24) / 2 ^ 25
    1 ≤ scale → 2 ^ (rm + scale - 2) ≤ a → a < 2 ^ (rm + scale - 1) →
    exec (.flpEnc rs rm) s = .next { s with regs := { s.regs with
      res0 := BitVec.ofNat 32 scale
      res1 := BitVec.ofNat 32
        ((if neg then 2 ^ (rm - 1) else 0) + (a - 2 ^ (rm + scale - 2)) / 2 ^ (scale - 1))
      res2 := BitVec.ofNat 32 ((if neg then 2 ^ (r - 1) else 0) + a)
      err := 0, sat := decide (2 ^ 24 ≤ k), denorm := false } } ∧
    scale ≤ 2 ^ rs - 1

/-- `FLP.DEC` with a legal configuration and a scale and mantissa in range completes with the
results of R64 and R66 and changes nothing else. -/
def Obligations.FlpDecResult : Prop :=
  ∀ (s : State) (rs rm : Nat), 1 ≤ rs → 1 ≤ rm → 2 ^ rs - 1 + rm ≤ 24 →
    s.regs.opa.toNat ≤ 2 ^ rs - 1 → s.regs.opb.toNat ≤ 2 ^ rm - 1 →
    let r : Nat := 2 ^ rs - 1 + rm
    let sc : Nat := s.regs.opa.toNat
    let ml : Nat := s.regs.opb.toNat % 2 ^ (rm - 1)
    let neg := decide (2 ^ (rm - 1) ≤ s.regs.opb.toNat)
    let m : Nat :=
      if sc = 0 then ml
      else 2 ^ (rm + sc - 2) + ml * 2 ^ (sc - 1) + (if 2 ≤ sc then 2 ^ (sc - 2) else 0)
    let d : Nat := (m * 2 ^ 26 + (2 ^ r - 1)) / (2 ^ (r + 1) - 2)
    exec (.flpDec rs rm) s = .next { s with regs := { s.regs with
      res0 := BitVec.ofInt 32 (if neg then -(d : Int) else (d : Int))
      res1 := BitVec.ofNat 32 ((if neg then 2 ^ (r - 1) else 0) + m)
      res2 := 0
      err := 0, sat := false, denorm := decide (sc = 0) } }

/-- The causes of R70 in the order of R69: one error per command, the decode before the
configuration before the operands. -/
def Obligations.ErrorsOfEveryCommand : Prop :=
  ∀ (v : Word) (s : State), ∃ t, execute v s = .next t ∧ t.regs.err.toNat ≤ 3 ∧
    (t.regs.err = 3 ↔ ∀ i, decode v ≠ .ok i) ∧
    (t.regs.err = 1 ↔ ∃ i, decode v = .ok i ∧ parameterError i s.regs) ∧
    (t.regs.err = 2 ↔ ∃ i, decode v = .ok i ∧ ¬ parameterError i s.regs ∧ domainError i s.regs)

/-- A command that ends in an error changes exactly the four flags of R71. -/
def Obligations.ErrorChangesExactlyTheFlags : Prop :=
  ∀ (v : Word) (s t : State), execute v s = .next t → t.regs.err ≠ 0 →
    t = { s with regs := { s.regs with
      err := t.regs.err, sat := false, denorm := false, sticky := true } }

/-- Every command word ends: in the state of R72 or in the state of R71, never in a mixture (R74),
never in a stop. -/
def Obligations.EveryCommandErrsOrCompletes : Prop :=
  ∀ (v : Word) (s : State), ∃ t, execute v s = .next t ∧
    t.inReset = s.inReset ∧ t.baseBlock = s.baseBlock ∧ t.bus = s.bus ∧ t.replies = s.replies ∧
    t.regs.maxr = s.regs.maxr ∧ t.regs.opa = s.regs.opa ∧ t.regs.opb = s.regs.opb ∧
    t.regs.cmd = s.regs.cmd ∧
    ((t.regs.err = 0 ∧ t.regs.sticky = s.regs.sticky) ∨
     (t.regs.err ≠ 0 ∧ t.regs.sat = false ∧ t.regs.denorm = false ∧ t.regs.sticky = true ∧
      t.regs.res0 = s.regs.res0 ∧ t.regs.res1 = s.regs.res1 ∧ t.regs.res2 = s.regs.res2))

/-- The result of a command depends on nothing but the command word, `MAXR`, `OPA` and `OPB`: not on
earlier results and not on `STATUS` (R12). -/
def Obligations.ResultDependsOnlyOnOperands : Prop :=
  ∀ (v : Word) (s s' : State),
    s.regs.maxr = s'.regs.maxr → s.regs.opa = s'.regs.opa → s.regs.opb = s'.regs.opb →
    ∃ t t', execute v s = .next t ∧ execute v s' = .next t' ∧
      t.regs.err = t'.regs.err ∧ t.regs.sat = t'.regs.sat ∧ t.regs.denorm = t'.regs.denorm ∧
      (t.regs.err = 0 → t.regs.res0 = t'.regs.res0 ∧ t.regs.res1 = t'.regs.res1 ∧
        t.regs.res2 = t'.regs.res2)

/-- An operand register that a command does not list is not read (R44). -/
def Obligations.UnlistedOperandsAreNotRead : Prop :=
  ∀ (i : Instr) (s s' : State), s.regs.opa = s'.regs.opa →
    ((∃ n sch, i = .uqEnc n sch) → s.regs.maxr = s'.regs.maxr) →
    ((∃ rs rm, i = .flpDec rs rm) → s.regs.opb = s'.regs.opb) →
    ∃ t t', exec i s = .next t ∧ exec i s' = .next t' ∧
      t.regs.err = t'.regs.err ∧ t.regs.sat = t'.regs.sat ∧ t.regs.denorm = t'.regs.denorm ∧
      (t.regs.err = 0 → t.regs.res0 = t'.regs.res0 ∧ t.regs.res1 = t'.regs.res1 ∧
        t.regs.res2 = t'.regs.res2)

/-- Executing the same word again with unchanged operands leaves the state as one execution does. For
the results, `ERR`, `SAT` and `DENORM` this is R31. That `STICKY` too is as after one execution goes
beyond R31 and follows from R12, R71 and R72: the second execution has the outcome of the first, and
an error sets `STICKY` again while a success leaves it. -/
def Obligations.RepeatedCommandChangesNothingMore : Prop :=
  ∀ (v : Word) (s : State), ∃ t, execute v s = .next t ∧ execute v t = .next t

/-! ### Laws of the codes -/

/-- The saturation, monotonicity and clamp laws of the magnitude code (R51, R57). -/
def Obligations.UniformMagnitudeIsMonotoneAndSaturates : Prop :=
  ∀ (n : Nat) (sch : Scheme) (mr : Int), 2 ≤ n → n ≤ 24 → 0 < mr →
    (∀ k : Nat, mr ≤ k → uqeMag k mr n sch = (2 ^ (n - 1) - 1, true)) ∧
    (∀ k k' : Nat, k ≤ k' → (uqeMag k mr n sch).1 ≤ (uqeMag k' mr n sch).1) ∧
    (∀ k : Nat, (uqeMag k mr n sch).1 ≤ 2 ^ (n - 1) - 1) ∧
    (mr ≤ 2 ^ 24 → ∀ k : Nat, (k : Int) < mr → uqeMag k mr n sch = (uqeBin k n sch, false))

/-- The invariants of a uniform code: the magnitude is at most `MAXMAG`, the codeword has `n` bits
and the signed code is plus or minus the magnitude (R57). -/
def Obligations.UniformCodeFitsItsWidth : Prop :=
  ∀ (s : State) (n : Nat) (sch : Scheme), 2 ≤ n → n ≤ 24 → 0 < s.regs.maxr.toInt →
    ∃ t, exec (.uqEnc n sch) s = .next t ∧ t.regs.err = 0 ∧
      t.regs.res2.toNat ≤ 2 ^ (n - 1) - 1 ∧ t.regs.res0.toNat < 2 ^ n ∧
      t.regs.res0.toNat % 2 ^ (n - 1) = t.regs.res2.toNat ∧
      t.regs.res1.toInt.natAbs = t.regs.res2.toNat ∧
      (t.regs.res0.toNat.testBit (n - 1) = decide (s.regs.opa.toInt < 0))

/-- The sign law of R57: the codewords of a value word and of its negation differ in the sign bit
alone, and the codeword of 0 has sign bit 0. -/
def Obligations.NegatedValueFlipsOnlyTheSignBit : Prop :=
  ∀ (s : State) (n : Nat) (sch : Scheme), 2 ≤ n → n ≤ 24 → 0 < s.regs.maxr.toInt →
    (s.regs.opa ≠ 0 → s.regs.opa ≠ 0x80000000#32 →
      ∃ t u, exec (.uqEnc n sch) s = .next t ∧
        exec (.uqEnc n sch) { s with regs := { s.regs with opa := -s.regs.opa } } = .next u ∧
        t.regs.res0 ^^^ u.regs.res0 = BitVec.ofNat 32 (2 ^ (n - 1)) ∧
        t.regs.res1 = -u.regs.res1 ∧ t.regs.res2 = u.regs.res2) ∧
    (s.regs.opa = 0 → ∃ t, exec (.uqEnc n sch) s = .next t ∧
      t.regs.res0.toNat.testBit (n - 1) = false)

/-- The reconstruction of R54: midrise is exact, midtread is the nearest multiple of `2^-24` with no
tie, and both are below 1.0. -/
def Obligations.ReconstructionIsNearest : Prop :=
  ∀ n m : Nat, 2 ≤ n → n ≤ 24 → m ≤ 2 ^ (n - 1) - 1 →
    uqdMag m n .midrise * 2 ^ n = (2 * m + 1) * 2 ^ 24 ∧
    uqdMag m n .midrise < 2 ^ 24 ∧
    (2 * (uqdMag m n .midtread : Int) * (2 ^ n - 1) - m * 2 ^ 26).natAbs < 2 ^ n - 1 ∧
    uqdMag m n .midtread < 2 ^ 24

/-- The quantization step of R56: encoding a value below both `max_range` and 1.0 and decoding the
codeword returns a value within half a step (midrise), or within half a step and `2^-25`
(midtread), and so within one step. Values are in units of `2^-24`. -/
def Obligations.UniformRoundTripIsWithinHalfAStep : Prop :=
  ∀ (s : State) (n : Nat) (sch : Scheme), 2 ≤ n → n ≤ 24 →
    (s.regs.opa.toInt.natAbs : Int) < s.regs.maxr.toInt → s.regs.opa.toInt.natAbs < 2 ^ 24 →
    ∃ t u, exec (.uqEnc n sch) s = .next t ∧
      exec (.uqDec n sch) { t with regs := { t.regs with opa := t.regs.res0 } } = .next u ∧
      t.regs.err = 0 ∧ t.regs.sat = false ∧ u.regs.err = 0 ∧
      (let e := (u.regs.res0.toInt - s.regs.opa.toInt).natAbs
       match sch with
       | .midrise => e * 2 ^ n ≤ 2 ^ 24 ∧ e * 2 ^ (n - 1) ≤ 2 ^ 24
       | .midtread => 2 * e * (2 ^ n - 1) ≤ 2 ^ 25 + (2 ^ n - 1) ∧ e * (2 ^ n - 1) ≤ 2 ^ 25)

/-- A larger magnitude has no more leading zeros (R60). -/
def Obligations.LeadingZeroCountIsMonotone : Prop :=
  ∀ (s s' : State) (r : Nat), 2 ≤ r → r ≤ 24 →
    s.regs.opa.toNat ≤ s'.regs.opa.toNat → s'.regs.opa.toNat < 2 ^ (r - 1) →
    ∃ t t', exec (.lzc r) s = .next t ∧ exec (.lzc r) s' = .next t' ∧
      t.regs.err = 0 ∧ t'.regs.err = 0 ∧ t'.regs.res0.toNat ≤ t.regs.res0.toNat

/-- The legal configurations of the floating-point quantizer (R5). -/
def Obligations.LegalFloatingConfigurations : Prop :=
  ∀ rs rm : Nat, flpLegal rs rm = true ↔
    (rs = 1 ∧ 1 ≤ rm ∧ rm ≤ 23) ∨ (rs = 2 ∧ 1 ≤ rm ∧ rm ≤ 21) ∨
    (rs = 3 ∧ 1 ≤ rm ∧ rm ≤ 17) ∨ (rs = 4 ∧ 1 ≤ rm ∧ rm ≤ 9)

/-- The scale, the mantissa and the codeword of `FLP.ENC` fit their declared widths, and `DENORM`
tells scale 0 (R62, R63). -/
def Obligations.FloatingCodeFitsItsWidths : Prop :=
  ∀ (s : State) (rs rm : Nat), 1 ≤ rs → 1 ≤ rm → 2 ^ rs - 1 + rm ≤ 24 →
    ∃ t, exec (.flpEnc rs rm) s = .next t ∧ t.regs.err = 0 ∧
      t.regs.res0.toNat ≤ 2 ^ rs - 1 ∧ t.regs.res1.toNat ≤ 2 ^ rm - 1 ∧
      t.regs.res2.toNat < 2 ^ (2 ^ rs - 1 + rm) ∧
      (t.regs.denorm = true ↔ t.regs.res0 = 0) ∧
      (t.regs.sat = true ↔ 2 ^ 24 ≤ s.regs.opa.toInt.natAbs) ∧
      (t.regs.res1.toNat.testBit (rm - 1) = decide (s.regs.opa.toInt < 0))

/-- The source's decode steps read literally and the closed form of R64 give the same magnitude;
the marker of the literal reading stands at bit `R - 1` (R65). -/
def Obligations.LiteralDecodeStepsAgree : Prop :=
  ∀ rs rm scale mantissa : Nat, 1 ≤ rs → 1 ≤ rm → 2 ^ rs - 1 + rm ≤ 24 →
    scale ≤ 2 ^ rs - 1 → mantissa ≤ 2 ^ rm - 1 →
    bitlen (flpMarkedCode scale mantissa rs rm) = 2 ^ rs - 1 + rm ∧
    flpMagnitudeLiteral scale mantissa rs rm = flpMagnitude scale mantissa rm ∧
    flpMagnitude scale mantissa rm < 2 ^ (2 ^ rs - 1 + rm - 1)

/-- What `FLPD_CODE` restores of a codeword that `FLPE` normalized: the sign, every bit from the
leading one down to bit `scale - 1`, and the whole magnitude when the scale is 0 or 1 (R64). -/
def Obligations.ReconstructionKeepsTheLeadingBits : Prop :=
  ∀ (rs rm a : Nat) (neg : Bool), 1 ≤ rs → 1 ≤ rm → 2 ^ rs - 1 + rm ≤ 24 →
    a < 2 ^ (2 ^ rs - 1 + rm - 1) →
    let r : Nat := 2 ^ rs - 1 + rm
    let sm := flpNormalize (codeword r neg a) rs rm
    let c := flpCode sm.1 sm.2 rs rm
    c < 2 ^ r ∧ codeSign r c = neg ∧
    (sm.1 ≤ 1 → codeMag r c = a) ∧
    (1 ≤ sm.1 → ∀ j, sm.1 - 1 ≤ j → (codeMag r c).testBit j = a.testBit j)

/-- The round trip of R67: how far the restored code and the decoded value can lie from the
original. Values are in units of `2^-24`. -/
def Obligations.FloatingRoundTripBound : Prop :=
  ∀ (s : State) (rs rm : Nat), 1 ≤ rs → 1 ≤ rm → 2 ^ rs - 1 + rm ≤ 24 →
    s.regs.opa.toInt.natAbs < 2 ^ 24 →
    ∃ t u, exec (.flpEnc rs rm) s = .next t ∧
      exec (.flpDec rs rm)
        { t with regs := { t.regs with opa := t.regs.res0, opb := t.regs.res1 } } = .next u ∧
      t.regs.err = 0 ∧ u.regs.err = 0 ∧
      (let r := 2 ^ rs - 1 + rm
       let scale := t.regs.res0.toNat
       let a : Int := t.regs.res2.toNat % 2 ^ (r - 1)
       let m : Int := u.regs.res1.toNat % 2 ^ (r - 1)
       let e := (u.regs.res0.toInt - s.regs.opa.toInt).natAbs
       (scale ≤ 1 → m = a ∧ e * (2 * (2 ^ r - 1)) ≤ 2 ^ 25 + (2 ^ r - 1)) ∧
       (2 ≤ scale → (m - a).natAbs ≤ 2 ^ (scale - 2) ∧
         e * (2 * (2 ^ r - 1)) ≤ (2 ^ (scale - 1) + 1) * 2 ^ 25 + (2 ^ r - 1)) ∧
       (u.regs.res0 = 0 ∨ (u.regs.res0.toInt < 0 ↔ s.regs.opa.toInt < 0)))

/-- Every scale and mantissa in range is produced by `FLP.ENC` from some value word (R66). -/
def Obligations.EveryPairIsProduced : Prop :=
  ∀ (s : State) (rs rm scale mantissa : Nat), 1 ≤ rs → 1 ≤ rm → 2 ^ rs - 1 + rm ≤ 24 →
    scale ≤ 2 ^ rs - 1 → mantissa ≤ 2 ^ rm - 1 →
    ∃ (w : Word) (t : State),
      exec (.flpEnc rs rm) { s with regs := { s.regs with opa := w } } = .next t ∧
      t.regs.err = 0 ∧ t.regs.res0.toNat = scale ∧ t.regs.res1.toNat = mantissa

/-! ### Registers, host accesses and resets -/

/-- The register map as reads see it (R29). -/
def Obligations.ReadReturnsTheRegister : Prop :=
  ∀ (s : State) (rest : List Event) (off : Nat), s.inReset = false → off < 64 → off % 4 = 0 →
    s.bus = .read (64 * s.baseBlock + off) 4 :: rest →
    let r := s.regs
    let w : Word :=
      if off = 0x00 then 0x51430107#32
      else if off = 0x04 then 0x00181820#32
      else if off = 0x0C then
        BitVec.ofNat 32
          (r.err.toNat + 16 * r.sat.toNat + 32 * r.denorm.toNat + 256 * r.sticky.toNat)
      else if off = 0x10 then r.maxr
      else if off = 0x14 then r.opa
      else if off = 0x18 then r.opb
      else if off = 0x1C then r.cmd
      else if off = 0x20 then r.res0
      else if off = 0x24 then r.res1
      else if off = 0x28 then r.res2
      else 0
    step s = .next { s with bus := rest, replies := s.replies ++ [.data w] }

/-- What a write does at each offset (R30). -/
def Obligations.WriteDoesWhatTheMapSays : Prop :=
  ∀ (s : State) (rest : List Event) (off : Nat) (v : Word), s.inReset = false → off < 64 →
    off % 4 = 0 → s.bus = .write (64 * s.baseBlock + off) 4 v :: rest →
    let r := s.regs
    let s' := { s with bus := rest, replies := s.replies ++ [.written] }
    step s =
      if off = 0x08 then .next (if v.getLsbD 0 then { s' with regs := Regs.reset } else s')
      else if off = 0x0C then
        .next (if v.getLsbD 8 then { s' with regs := { r with sticky := false } } else s')
      else if off = 0x10 then .next { s' with regs := { r with maxr := v } }
      else if off = 0x14 then .next { s' with regs := { r with opa := v } }
      else if off = 0x18 then .next { s' with regs := { r with opb := v } }
      else if off = 0x1C then execute v { s' with regs := { r with cmd := v } }
      else .next s'

/-- `ID` and `PARAM` are the constants of R14, with the fields R14 names, before and after any
write and any reset. -/
def Obligations.IdentificationIsConstant : Prop :=
  (∀ r : Regs, r.read (regAt 0x00) = 0x51430107#32 ∧ r.read (regAt 0x04) = 0x00181820#32) ∧
  (0x51430107#32).extractLsb' 16 16 = 0x5143#16 ∧ (0x51430107#32).extractLsb' 8 8 = 0x01#8 ∧
  (0x51430107#32).extractLsb' 0 8 = 0x07#8 ∧
  (0x00181820#32).extractLsb' 0 8 = 32#8 ∧ (0x00181820#32).extractLsb' 8 8 = 24#8 ∧
  (0x00181820#32).extractLsb' 16 8 = 24#8 ∧ (0x00181820#32).extractLsb' 24 8 = 0#8 ∧
  (∀ (s : State) (rest : List Event) (v : Word), s.inReset = false →
    s.bus = .write (64 * s.baseBlock + 0x00) 4 v :: rest ∨
      s.bus = .write (64 * s.baseBlock + 0x04) 4 v :: rest →
    ∃ t, step s = .next t ∧ t.regs = s.regs)

/-- The byte lanes of a register are little-endian: bit `8j + i` is bit `i` of lane `j` (R27). -/
def Obligations.ByteLanesAreLittleEndian : Prop :=
  (∀ (w : Word) (i j : Nat), i < 8 → j < 4 → (byteLane w j).getLsbD i = w.getLsbD (8 * j + i)) ∧
  (∀ w : Word, wordOfBytes (byteLane w 0) (byteLane w 1) (byteLane w 2) (byteLane w 3) = w) ∧
  (∀ (r : Regs) (off j : Nat), r.byteAt off j = byteLane (r.read (regAt off)) j)

/-- The reset state of R83, whichever reset gives it: the state after reset, a soft reset and the
release of the hardware reset input. `ID` and `PARAM` read as their constants and `CTRL` as 0. -/
def Obligations.ResetStateIsAsGiven : Prop :=
  let r : Regs := {
    maxr := 0x01000000#32, opa := 0, opb := 0, cmd := 0, res0 := 0, res1 := 0, res2 := 0
    err := 0, sat := false, denorm := false, sticky := false }
  State.reset.regs = r ∧ (∀ s : State, s.softReset.regs = r) ∧
  (∀ s : State, s.inReset = true → (s.driveReset false).regs = r) ∧
  r.read (regAt 0x00) = 0x51430107#32 ∧ r.read (regAt 0x04) = 0x00181820#32 ∧
  r.read (regAt 0x08) = 0

/-- The soft reset: every field of R10 takes its reset value in one step, with no command run
(R84). -/
def Obligations.SoftResetRestoresEveryRegister : Prop :=
  ∀ (s : State) (rest : List Event) (v : Word), s.inReset = false →
    s.bus = .write (64 * s.baseBlock + 0x08) 4 v :: rest → v.getLsbD 0 = true →
    step s = .next { s with
      regs := {
        maxr := 0x01000000#32, opa := 0, opb := 0, cmd := 0, res0 := 0, res1 := 0, res2 := 0
        err := 0, sat := false, denorm := false, sticky := false }
      bus := rest, replies := s.replies ++ [.written] }

/-- The hardware reset input (R85). That an access meanwhile is the stop `accessInReset` and that
the registers take their values at the release are the model's choices, log entries 6 and 7. -/
def Obligations.HardwareResetHoldsAndReleases : Prop :=
  (∀ (s : State) (rest : List Event), s.bus = .resetInput true :: rest →
    step s = .next { s with inReset := true, bus := rest }) ∧
  (∀ (s : State) (rest : List Event), s.inReset = true → s.bus = .resetInput false :: rest →
    step s = .next { s with regs := State.reset.regs, inReset := false, bus := rest }) ∧
  (∀ (s : State) (rest : List Event) (addr size : Nat) (v : Word), s.inReset = true →
    (s.bus = .read addr size :: rest ∨ s.bus = .write addr size v :: rest) →
    step s = .fault .accessInReset)

/-- A wrong size or alignment inside the window gets the bus error response and changes no register
(R79, R28). Every byte of the access lies in the window; one that runs past the end is in
`StraddlingAccessIsDecidedByItsFirstByte`. -/
def Obligations.BusErrorChangesNoRegister : Prop :=
  ∀ (s : State) (rest : List Event) (addr size : Nat) (v : Word), s.inReset = false →
    (s.bus = .read addr size :: rest ∨ s.bus = .write addr size v :: rest) →
    64 * s.baseBlock ≤ addr → addr < 64 * s.baseBlock + 64 →
    addr + size ≤ 64 * s.baseBlock + 64 → (size ≠ 4 ∨ addr % 4 ≠ 0) →
    ∃ t, step s = .next t ∧ t.regs = s.regs ∧ t.inReset = s.inReset ∧
      t.baseBlock = s.baseBlock ∧ t.replies = s.replies ++ [.busError]

/-- An access of which no byte lies in the window is not AQC's (R26). That it stops the model is the
model's choice, log entry 5. One that starts below the window and runs into it is in
`StraddlingAccessIsDecidedByItsFirstByte`. -/
def Obligations.OutsideAccessStops : Prop :=
  ∀ (s : State) (rest : List Event) (addr size : Nat) (v : Word), s.inReset = false →
    (s.bus = .read addr size :: rest ∨ s.bus = .write addr size v :: rest) →
    ((addr < 64 * s.baseBlock ∧ addr + size ≤ 64 * s.baseBlock) ∨
      64 * s.baseBlock + 64 ≤ addr) →
    step s = .fault (.outsideWindow addr)

/-- `STICKY` is set by a command that ends in an error and by nothing else, and cleared by a write
of `STATUS` with bit 8 set or by a reset and by nothing else (R17). That a hardware reset clears it
at the release of the reset input, and that the assertion leaves it, is the model's choice, log entry
7. -/
def Obligations.StickyChangesOnlyAsStated : Prop :=
  ∀ s t : State, step s = .next t →
    (s.regs.sticky = false → t.regs.sticky = true →
      ∃ v, s.WritesNext .cmd v ∧ t.regs.err ≠ 0) ∧
    (s.regs.sticky = true → t.regs.sticky = false →
      s.ResetsNext ∨ ∃ v, s.WritesNext .status v ∧ v.getLsbD 8 = true) ∧
    (∀ v, s.WritesNext .cmd v → t.regs.err ≠ 0 → t.regs.sticky = true) ∧
    (∀ v, s.WritesNext .cmd v → t.regs.err = 0 → t.regs.sticky = s.regs.sticky) ∧
    (∀ v, s.WritesNext .status v → v.getLsbD 8 = true → t.regs.sticky = false) ∧
    (∀ v, s.WritesNext .status v → v.getLsbD 8 = false → t.regs.sticky = s.regs.sticky) ∧
    (s.ResetsNext → t.regs.sticky = false)

/-- `ERR`, `SAT` and `DENORM` change by a command or a reset only, and the result registers by a
command that completes or a reset only (R16, R22, R24). That the assertion of the hardware reset
input leaves them until the release is the model's choice, log entry 7. -/
def Obligations.OutcomeChangesOnlyByCommandsAndResets : Prop :=
  ∀ s t : State, step s = .next t →
    ((t.regs.err = s.regs.err ∧ t.regs.sat = s.regs.sat ∧ t.regs.denorm = s.regs.denorm) ∨
      (∃ v, s.WritesNext .cmd v) ∨ s.ResetsNext) ∧
    ((t.regs.res0 = s.regs.res0 ∧ t.regs.res1 = s.regs.res1 ∧ t.regs.res2 = s.regs.res2) ∨
      (∃ v, s.WritesNext .cmd v ∧ t.regs.err = 0) ∨ s.ResetsNext)

/-- A write to `MAXR`, `OPA`, `OPB` or `CMD` gives the register the word written, and each changes by
a write to itself or a reset only: no command writes them (R18 to R21). That the assertion of the
hardware reset input leaves them until the release is the model's choice, log entry 7. -/
def Obligations.OperandRegistersHoldTheLastWrite : Prop :=
  ∀ s t : State, step s = .next t →
    (∀ v, s.WritesNext .maxr v → t.regs.maxr = v) ∧
    (∀ v, s.WritesNext .opa v → t.regs.opa = v) ∧
    (∀ v, s.WritesNext .opb v → t.regs.opb = v) ∧
    (∀ v, s.WritesNext .cmd v → t.regs.cmd = v) ∧
    (t.regs.maxr = s.regs.maxr ∨ s.WritesNext .maxr t.regs.maxr ∨ s.ResetsNext) ∧
    (t.regs.opa = s.regs.opa ∨ s.WritesNext .opa t.regs.opa ∨ s.ResetsNext) ∧
    (t.regs.opb = s.regs.opb ∨ s.WritesNext .opb t.regs.opb ∨ s.ResetsNext) ∧
    (t.regs.cmd = s.regs.cmd ∨ s.WritesNext .cmd t.regs.cmd ∨ s.ResetsNext)

/-- The accesses and the expansions of R47. -/
def Obligations.PseudoInstructionsExpand : Prop :=
  ∀ (s : State) (i : Instr) (r : RegName) (n rs rm : Nat) (sch : Scheme) (v w : Word),
    let b := 64 * s.baseBlock
    [RegName.id, .param, .ctrl, .status, .maxr, .opa, .opb, .cmd, .res0, .res1, .res2].map
      RegName.offset = [0x00, 0x04, 0x08, 0x0C, 0x10, 0x14, 0x18, 0x1C, 0x20, 0x24, 0x28] ∧
    stW s r v = .write (b + r.offset) 4 v ∧ ldW s r = .read (b + r.offset) 4 ∧
    cmdProgram s i = [.write (b + 0x1C) 4 (encode i)] ∧
    clrerrProgram s = [.write (b + 0x0C) 4 0x00000100#32] ∧
    srstProgram s = [.write (b + 0x08) 4 0x00000001#32] ∧
    uqencProgram s n sch v =
      [.write (b + 0x14) 4 v, .write (b + 0x1C) 4 (encode (.uqEnc n sch))] ∧
    uqdecProgram s n sch v =
      [.write (b + 0x14) 4 v, .write (b + 0x1C) 4 (encode (.uqDec n sch))] ∧
    flpencProgram s rs rm v =
      [.write (b + 0x14) 4 v, .write (b + 0x1C) 4 (encode (.flpEnc rs rm))] ∧
    flpdecProgram s rs rm v w =
      [.write (b + 0x14) 4 v, .write (b + 0x18) 4 w,
       .write (b + 0x1C) 4 (encode (.flpDec rs rm))]

/-! ### Runs -/

/-- The invariant holds at reset. -/
def Obligations.ResetIsConsistent : Prop := State.reset.Consistent

/-- Every step keeps the invariant and the window base: which codes `ERR` takes and why (R16, R42,
R68, R70), the flags (R24, R71), and the widths of the results (R45, R54, R57, R58, R62, R64). That
the registers keep it while the hardware reset input is asserted rests on log entry 7. -/
def Obligations.StepKeepsConsistency : Prop :=
  ∀ s t : State, s.Consistent → step s = .next t →
    t.Consistent ∧ t.baseBlock = s.baseBlock

/-- A read returns the word of the latest write to that register, whatever accesses stand between the
two: reads, writes of other registers and commands, but no second write of the register and no
reset (R32). -/
def Obligations.ReadReturnsTheLatestWrite : Prop :=
  ∀ (s : State) (r : RegName) (v : Word) (between : List Event),
    s.inReset = false → r = .maxr ∨ r = .opa ∨ r = .opb ∨ r = .cmd →
    (∀ e ∈ between, e.leaves s r = true) →
    s.bus = stW s r v :: (between ++ [ldW s r]) →
    ∃ t, Host.Core.run Sys2Proof.core (between.length + 2) s = .next t ∧ t.bus = [] ∧
      t.replies.length = s.replies.length + between.length + 2 ∧
      t.replies.getLast? = some (.data v)

/-- A command's outcome is there for the next access and stays, however often it is read: each read
answers with the register, at its offset, of the state in which the command ended (R33, R88). -/
def Obligations.ReadsAfterACommandSeeItsOutcome : Prop :=
  ∀ (s : State) (v : Word) (reads : List Event), s.inReset = false →
    (∀ e ∈ reads, e.orderlyRead s.base = true) →
    s.bus = stW s .cmd v :: reads →
    ∃ t u, execute v { s with regs := { s.regs with cmd := v } } = .next u ∧
      Host.Core.run Sys2Proof.core (reads.length + 1) s = .next t ∧
      t.regs = u.regs ∧ t.bus = [] ∧
      t.replies = s.replies ++ [.written] ++
        reads.map fun e => .data (u.regs.read (regAt (e.readOffset s.base)))

/-- AQC never stops, hangs or halts on a host program that uses the window as R28 asks: every access
gets one answer, none of them a bus error, and then AQC idles (R89). That it idles when no access is
pending is the model's form of it, log entry 2. -/
def Obligations.HostProgramRunsToItsEnd : Prop :=
  ∀ s : State, s.Orderly →
    ∃ (t : State) (answers : List Reply),
      Host.Core.run Sys2Proof.core s.bus.length s = .next t ∧ t.bus = [] ∧
      t.inReset = false ∧ t.baseBlock = s.baseBlock ∧
      t.replies = s.replies ++ answers ∧ answers.length = s.bus.length ∧
      .busError ∉ answers ∧ step t = .next t

/-! ### Accesses over an end of the window -/

/-- An access that straddles an end of the window. No rule of the spec speaks of one; that its first
byte decides is the model's choice, log entry 8. One that starts inside and runs past the end gets
the bus error response and changes no register; one that starts below and runs into the window is
the stop `outsideWindow`. -/
def Obligations.StraddlingAccessIsDecidedByItsFirstByte : Prop :=
  ∀ (s : State) (rest : List Event) (addr size : Nat) (v : Word), s.inReset = false →
    (s.bus = .read addr size :: rest ∨ s.bus = .write addr size v :: rest) →
    (64 * s.baseBlock ≤ addr → addr < 64 * s.baseBlock + 64 →
      64 * s.baseBlock + 64 < addr + size →
      ∃ t, step s = .next t ∧ t.regs = s.regs ∧ t.inReset = s.inReset ∧
        t.baseBlock = s.baseBlock ∧ t.replies = s.replies ++ [.busError]) ∧
    (addr < 64 * s.baseBlock → 64 * s.baseBlock < addr + size →
      step s = .fault (.outsideWindow addr))
end

