-- ==== Sys2Proof/Laws/Numbers.lean ====
section
/-! SUPPORT. The spec lemma of each number operation: two's complement (00_scope.md R7), widths
(R5), codewords (40_uniform_quantizer.md R53, R55), bins (R51, R52) and `bitlen` (R6, R58). -/

namespace Sys2Proof.Machine

/-- R7's `sint32` is the two's-complement integer of the word. -/
theorem sint32_eq_toInt (w : Word) : sint32 w = w.toInt := by
  unfold sint32
  rw [BitVec.toInt_eq_toNat_cond]
  split_ifs <;> omega

@[simp] theorem zext32_eq (v : Nat) : zext32 v = BitVec.ofNat 32 v := rfl

@[simp] theorem word32_eq (i : Int) : word32 i = BitVec.ofInt 32 i := rfl

theorem toNat_zext32 {v : Nat} (h : v < 2 ^ 32) : (zext32 v).toNat = v := by
  rw [zext32_eq, BitVec.toNat_ofNat, Nat.mod_eq_of_lt h]

/-- A word is zero-extended from its own number. -/
@[simp] theorem zext32_toNat (w : Word) : zext32 w.toNat = w := by simp

theorem toInt_word32 {i : Int} (h1 : -2 ^ 31 ≤ i) (h2 : i < 2 ^ 31) : (word32 i).toInt = i := by
  rw [word32_eq, BitVec.toInt_ofInt]
  exact Int.bmod_eq_of_le (by omega) (by omega)

/-- The magnitude of a value word is at most `2^31` (R8). -/
theorem magnitudeOf_le (w : Word) : magnitudeOf w ≤ 2 ^ 31 := by
  unfold magnitudeOf sint32
  have := w.isLt
  split_ifs <;> omega

theorem widthLegal_iff (n : Nat) : widthLegal n = true ↔ 2 ≤ n ∧ n ≤ 24 := by simp [widthLegal]

theorem flpLegal_iff (rs rm : Nat) :
    flpLegal rs rm = true ↔ 1 ≤ rs ∧ 1 ≤ rm ∧ 2 ^ rs - 1 + rm ≤ 24 := by
  simp only [flpLegal, Bool.and_eq_true, decide_eq_true_eq, and_assoc]
  rfl

/-- A codeword is its sign bit and its magnitude side by side (R53). -/
theorem codeword_eq {n m : Nat} (s : Bool) (h : m < 2 ^ (n - 1)) :
    codeword n s m = (if s then 2 ^ (n - 1) else 0) + m := by
  cases s with
  | false => simp [codeword]
  | true =>
    simpa [codeword, Nat.shiftLeft_eq] using (Nat.two_pow_add_eq_or_of_lt h 1).symm

theorem codeword_lt {n m : Nat} (s : Bool) (hn : 1 ≤ n) (h : m < 2 ^ (n - 1)) :
    codeword n s m < 2 ^ n := by
  have h2 : 2 ^ n = 2 * 2 ^ (n - 1) := by rw [← pow_succ', Nat.sub_add_cancel hn]
  rw [codeword_eq s h]
  split_ifs <;> omega

theorem codeSign_codeword {n m : Nat} (s : Bool) (h : m < 2 ^ (n - 1)) :
    codeSign n (codeword n s m) = s := by
  rw [codeSign, codeword_eq s h]
  cases s with
  | false => simpa using Nat.testBit_lt_two_pow h
  | true =>
    rw [if_pos rfl, Nat.testBit_two_pow_add_eq, Nat.testBit_lt_two_pow h]
    rfl

/-- The magnitude of a codeword is what is left below the sign bit (R55). -/
theorem codeMag_eq {n : Nat} (hn : 2 ≤ n) (c : Nat) : codeMag n c = c % 2 ^ (n - 1) := by
  have : n - 2 + 1 - 0 = n - 1 := by omega
  simp only [codeMag, bitField, this, Nat.shiftRight_zero]

theorem codeMag_codeword {n m : Nat} (s : Bool) (hn : 2 ≤ n) (h : m < 2 ^ (n - 1)) :
    codeMag n (codeword n s m) = m := by
  rw [codeMag_eq hn, codeword_eq s h]
  split_ifs
  · rw [Nat.add_mod_left, Nat.mod_eq_of_lt h]
  · rw [Nat.zero_add, Nat.mod_eq_of_lt h]

/-- `bitlen` names the power of two just above a number (R6). -/
theorem bitlen_spec {x : Nat} (h : x ≠ 0) : 2 ^ (bitlen x - 1) ≤ x ∧ x < 2 ^ bitlen x := by
  simp only [bitlen, if_neg h, Nat.add_sub_cancel]
  exact ⟨Nat.log2_self_le h, Nat.lt_log2_self⟩

/-- `bitlen` is determined by the power of two just below a number (R6). -/
theorem bitlen_eq {x p : Nat} (h1 : 2 ^ p ≤ x) (h2 : x < 2 ^ (p + 1)) : bitlen x = p + 1 := by
  have h0 : x ≠ 0 := by
    have := Nat.two_pow_pos p
    omega
  simp only [bitlen, if_neg h0, (Nat.log2_eq_iff h0).2 ⟨h1, h2⟩]

/-- The midrise bin as a floor (R52). -/
theorem uqeBin_midrise (k n : Nat) : uqeBin k n .midrise = 2 ^ (n - 1) * k / 2 ^ 24 := by
  simp [uqeBin, Nat.shiftLeft_eq, Nat.shiftRight_eq_div_pow, Nat.mul_comm]

/-- The midtread bin as a floor (R52). -/
theorem uqeBin_midtread (k n : Nat) :
    uqeBin k n .midtread = ((2 ^ n - 1) * k + 2 ^ 24) / 2 ^ 25 := by
  simp [uqeBin, Nat.shiftRight_eq_div_pow]

/-- What `UQE_MAG` can answer: the largest magnitude, saturated, or the bin, which is no larger
(R51). -/
theorem uqeMag_cases (k : Nat) (mr : Int) (n : Nat) (sch : Scheme) :
    ((mr ≤ k ∨ maxMag n < uqeBin k n sch) ∧ uqeMag k mr n sch = (maxMag n, true)) ∨
      ((k : Int) < mr ∧ uqeBin k n sch ≤ maxMag n ∧
        uqeMag k mr n sch = (uqeBin k n sch, false)) := by
  unfold uqeMag
  by_cases h1 : mr ≤ (k : Int)
  · simp [h1]
  · by_cases h2 : maxMag n < uqeBin k n sch
    · simp [h1, h2]
    · right
      simp only [if_neg h1, if_neg h2]
      exact ⟨by omega, by omega, trivial⟩

/-- The magnitude bits of a legal width hold every magnitude `UQE_MAG` answers (R51). -/
theorem uqeMag_lt (k : Nat) (mr : Int) (n : Nat) (sch : Scheme) :
    (uqeMag k mr n sch).1 < 2 ^ (n - 1) := by
  have hp := Nat.two_pow_pos (n - 1)
  rcases uqeMag_cases k mr n sch with ⟨-, h⟩ | ⟨-, h2, h⟩ <;> rw [h]
  · show 2 ^ (n - 1) - 1 < _
    omega
  · have : maxMag n = 2 ^ (n - 1) - 1 := rfl
    show uqeBin k n sch < _
    omega

end Sys2Proof.Machine
end

