-- ==== Sys2Proof/Laws/State.lean ====
section
/-! SUPPORT. One lemma per field of State and per update of it, true by `rfl`: a later proof rewrites
with these and unfolds no update. -/

namespace Sys2Proof.Machine

@[simp] theorem State.setMaxr_regs (s : State) (v : Word) :
    (s.setMaxr v).regs = { s.regs with maxr := v } := rfl
@[simp] theorem State.setMaxr_inReset (s : State) (v : Word) : (s.setMaxr v).inReset = s.inReset := rfl
@[simp] theorem State.setMaxr_baseBlock (s : State) (v : Word) : (s.setMaxr v).baseBlock = s.baseBlock := rfl
@[simp] theorem State.setMaxr_bus (s : State) (v : Word) : (s.setMaxr v).bus = s.bus := rfl
@[simp] theorem State.setMaxr_replies (s : State) (v : Word) : (s.setMaxr v).replies = s.replies := rfl

@[simp] theorem State.setOpa_regs (s : State) (v : Word) :
    (s.setOpa v).regs = { s.regs with opa := v } := rfl
@[simp] theorem State.setOpa_inReset (s : State) (v : Word) : (s.setOpa v).inReset = s.inReset := rfl
@[simp] theorem State.setOpa_baseBlock (s : State) (v : Word) : (s.setOpa v).baseBlock = s.baseBlock := rfl
@[simp] theorem State.setOpa_bus (s : State) (v : Word) : (s.setOpa v).bus = s.bus := rfl
@[simp] theorem State.setOpa_replies (s : State) (v : Word) : (s.setOpa v).replies = s.replies := rfl

@[simp] theorem State.setOpb_regs (s : State) (v : Word) :
    (s.setOpb v).regs = { s.regs with opb := v } := rfl
@[simp] theorem State.setOpb_inReset (s : State) (v : Word) : (s.setOpb v).inReset = s.inReset := rfl
@[simp] theorem State.setOpb_baseBlock (s : State) (v : Word) : (s.setOpb v).baseBlock = s.baseBlock := rfl
@[simp] theorem State.setOpb_bus (s : State) (v : Word) : (s.setOpb v).bus = s.bus := rfl
@[simp] theorem State.setOpb_replies (s : State) (v : Word) : (s.setOpb v).replies = s.replies := rfl

@[simp] theorem State.setCmd_regs (s : State) (v : Word) :
    (s.setCmd v).regs = { s.regs with cmd := v } := rfl
@[simp] theorem State.setCmd_inReset (s : State) (v : Word) : (s.setCmd v).inReset = s.inReset := rfl
@[simp] theorem State.setCmd_baseBlock (s : State) (v : Word) : (s.setCmd v).baseBlock = s.baseBlock := rfl
@[simp] theorem State.setCmd_bus (s : State) (v : Word) : (s.setCmd v).bus = s.bus := rfl
@[simp] theorem State.setCmd_replies (s : State) (v : Word) : (s.setCmd v).replies = s.replies := rfl

@[simp] theorem State.clearSticky_regs (s : State) :
    (s.clearSticky).regs = { s.regs with sticky := false } := rfl
@[simp] theorem State.clearSticky_inReset (s : State) : (s.clearSticky).inReset = s.inReset := rfl
@[simp] theorem State.clearSticky_baseBlock (s : State) : (s.clearSticky).baseBlock = s.baseBlock := rfl
@[simp] theorem State.clearSticky_bus (s : State) : (s.clearSticky).bus = s.bus := rfl
@[simp] theorem State.clearSticky_replies (s : State) : (s.clearSticky).replies = s.replies := rfl

@[simp] theorem State.softReset_regs (s : State) :
    (s.softReset).regs = Regs.reset := rfl
@[simp] theorem State.softReset_inReset (s : State) : (s.softReset).inReset = s.inReset := rfl
@[simp] theorem State.softReset_baseBlock (s : State) : (s.softReset).baseBlock = s.baseBlock := rfl
@[simp] theorem State.softReset_bus (s : State) : (s.softReset).bus = s.bus := rfl
@[simp] theorem State.softReset_replies (s : State) : (s.softReset).replies = s.replies := rfl

@[simp] theorem State.raise_regs (s : State) (e : CommandError) :
    (s.raise e).regs = { s.regs with
      err := errorCode e, sat := false, denorm := false, sticky := true } := rfl
@[simp] theorem State.raise_inReset (s : State) (e : CommandError) : (s.raise e).inReset = s.inReset := rfl
@[simp] theorem State.raise_baseBlock (s : State) (e : CommandError) : (s.raise e).baseBlock = s.baseBlock := rfl
@[simp] theorem State.raise_bus (s : State) (e : CommandError) : (s.raise e).bus = s.bus := rfl
@[simp] theorem State.raise_replies (s : State) (e : CommandError) : (s.raise e).replies = s.replies := rfl

@[simp] theorem State.complete_regs (s : State) (c : Completion) :
    (s.complete c).regs = { s.regs with
      res0 := c.res0, res1 := c.res1, res2 := c.res2
      err := 0, sat := c.sat, denorm := c.denorm } := rfl
@[simp] theorem State.complete_inReset (s : State) (c : Completion) : (s.complete c).inReset = s.inReset := rfl
@[simp] theorem State.complete_baseBlock (s : State) (c : Completion) : (s.complete c).baseBlock = s.baseBlock := rfl
@[simp] theorem State.complete_bus (s : State) (c : Completion) : (s.complete c).bus = s.bus := rfl
@[simp] theorem State.complete_replies (s : State) (c : Completion) : (s.complete c).replies = s.replies := rfl

@[simp] theorem State.reply_regs (s : State) (a : Reply) : (s.reply a).regs = s.regs := rfl
@[simp] theorem State.reply_inReset (s : State) (a : Reply) : (s.reply a).inReset = s.inReset := rfl
@[simp] theorem State.reply_baseBlock (s : State) (a : Reply) :
    (s.reply a).baseBlock = s.baseBlock := rfl
@[simp] theorem State.reply_bus (s : State) (a : Reply) : (s.reply a).bus = s.bus := rfl
@[simp] theorem State.reply_replies (s : State) (a : Reply) :
    (s.reply a).replies = s.replies ++ [a] := rfl

@[simp] theorem State.busError_regs (s : State) : (s.busError).regs = s.regs := rfl
@[simp] theorem State.busError_inReset (s : State) : (s.busError).inReset = s.inReset := rfl
@[simp] theorem State.busError_baseBlock (s : State) : (s.busError).baseBlock = s.baseBlock := rfl
@[simp] theorem State.busError_bus (s : State) :
    (s.busError).bus = s.bus.filter Event.isResetInput := rfl
@[simp] theorem State.busError_replies (s : State) :
    (s.busError).replies = s.replies ++ [.busError] := rfl

@[simp] theorem State.withBus_regs (s : State) (rest : List Event) :
    (s.withBus rest).regs = s.regs := rfl
@[simp] theorem State.withBus_inReset (s : State) (rest : List Event) :
    (s.withBus rest).inReset = s.inReset := rfl
@[simp] theorem State.withBus_baseBlock (s : State) (rest : List Event) :
    (s.withBus rest).baseBlock = s.baseBlock := rfl
@[simp] theorem State.withBus_bus (s : State) (rest : List Event) :
    (s.withBus rest).bus = rest := rfl
@[simp] theorem State.withBus_replies (s : State) (rest : List Event) :
    (s.withBus rest).replies = s.replies := rfl

@[simp] theorem State.driveReset_true (s : State) :
    s.driveReset true = { s with inReset := true } := rfl

theorem State.driveReset_false (s : State) :
    s.driveReset false = if s.inReset then { s with regs := Regs.reset, inReset := false } else s :=
  rfl

@[simp] theorem State.finish_ok (s : State) (c : Completion) : s.finish (.ok c) = s.complete c := rfl
@[simp] theorem State.finish_error (s : State) (e : CommandError) :
    s.finish (.error e) = s.raise e := rfl

@[simp] theorem State.withFetchWord_regs (s : State) (nbits w : Nat) :
    (s.withFetchWord nbits w).regs = s.regs := rfl
@[simp] theorem State.withFetchWord_inReset (s : State) (nbits w : Nat) :
    (s.withFetchWord nbits w).inReset = false := rfl
@[simp] theorem State.withFetchWord_baseBlock (s : State) (nbits w : Nat) :
    (s.withFetchWord nbits w).baseBlock = s.baseBlock := rfl
@[simp] theorem State.withFetchWord_replies (s : State) (nbits w : Nat) :
    (s.withFetchWord nbits w).replies = s.replies := rfl
@[simp] theorem State.withFetchWord_bus (s : State) (nbits w : Nat) :
    (s.withFetchWord nbits w).bus =
      s.commandStore (BitVec.ofNat 32 (w % 2 ^ nbits)) :: s.bus := rfl

end Sys2Proof.Machine
end

