-- ==== Sys2Proof/Laws/Commands.lean ====
section
/-! SUPPORT. What the end of a command can do, said once (60_exceptions.md R71, R72, R74), and each
arm of `exec` as that end of the command's own result. -/

namespace Sys2Proof.Machine

/-- The end of a command completes it or raises its error: nothing else. -/
theorem State.finish_cases (s : State) (r : Except CommandError Completion) :
    (∃ c, r = .ok c ∧ s.finish r = s.complete c) ∨
      (∃ e, r = .error e ∧ s.finish r = s.raise e) := by
  cases r with
  | ok c => exact .inl ⟨c, rfl, rfl⟩
  | error e => exact .inr ⟨e, rfl, rfl⟩

/-- The end of a command writes results and flags alone (R71, R72): no operand register, no command
word and nothing outside the registers. -/
theorem State.finish_frame (s : State) (r : Except CommandError Completion) :
    (s.finish r).inReset = s.inReset ∧ (s.finish r).baseBlock = s.baseBlock ∧
      (s.finish r).bus = s.bus ∧ (s.finish r).replies = s.replies ∧
      (s.finish r).regs.maxr = s.regs.maxr ∧ (s.finish r).regs.opa = s.regs.opa ∧
      (s.finish r).regs.opb = s.regs.opb ∧ (s.finish r).regs.cmd = s.regs.cmd := by
  rcases s.finish_cases r with ⟨c, -, h⟩ | ⟨e, -, h⟩ <;> rw [h] <;> simp

theorem exec_uqEnc (nb : Nat) (sch : Scheme) (s : State) :
    exec (.uqEnc nb sch) s = .next (s.finish (uqEncode nb sch s.regs.opa s.regs.maxr)) := rfl

theorem exec_uqDec (nb : Nat) (sch : Scheme) (s : State) :
    exec (.uqDec nb sch) s = .next (s.finish (uqDecode nb sch s.regs.opa)) := rfl

theorem exec_lzc (nb : Nat) (s : State) :
    exec (.lzc nb) s = .next (s.finish (leadingZeros nb s.regs.opa)) := rfl

theorem exec_flpEnc (rs rm : Nat) (s : State) :
    exec (.flpEnc rs rm) s = .next (s.finish (flpEncode rs rm s.regs.opa)) := rfl

theorem exec_flpDec (rs rm : Nat) (s : State) :
    exec (.flpDec rs rm) s = .next (s.finish (flpDecode rs rm s.regs.opa s.regs.opb)) := rfl

/-- `UQ_ENC` errs exactly when its width or `max_range` is illegal (R53). -/
theorem uqEncode_error {n : Nat} {value maxRange : Word} (sch : Scheme)
    (h : widthLegal n = false ∨ sint32 maxRange ≤ 0) :
    uqEncode n sch value maxRange = .error .invalidParameter := by
  unfold uqEncode
  rcases h with h | h
  · rw [if_pos h]
  · rw [if_pos h, ite_self]

/-- What `UQ_ENC` delivers (R53). -/
theorem uqEncode_ok {n : Nat} {maxRange : Word} (sch : Scheme) (value : Word)
    (h : widthLegal n = true) (hm : 0 < sint32 maxRange) :
    uqEncode n sch value maxRange = .ok
      { res0 := zext32 (codeword n (signOf value)
          (uqeMag (magnitudeOf value) (sint32 maxRange) n sch).1)
        res1 := word32 (signed (signOf value)
          (uqeMag (magnitudeOf value) (sint32 maxRange) n sch).1)
        res2 := zext32 (uqeMag (magnitudeOf value) (sint32 maxRange) n sch).1
        sat := (uqeMag (magnitudeOf value) (sint32 maxRange) n sch).2
        denorm := false } := by
  rw [uqEncode, if_neg (by simp [h]), if_neg (not_le.2 hm)]

/-- `UQ_DEC` refuses an illegal width (R55). -/
theorem uqDecode_invalid {n : Nat} (sch : Scheme) (code : Word) (h : widthLegal n = false) :
    uqDecode n sch code = .error .invalidParameter := by
  rw [uqDecode, if_pos h]

/-- `UQ_DEC` refuses a word wider than its code (R55). -/
theorem uqDecode_domain {n : Nat} {code : Word} (sch : Scheme) (h : widthLegal n = true)
    (hc : 2 ^ n ≤ code.toNat) : uqDecode n sch code = .error .domainViolation := by
  rw [uqDecode, if_neg (by simp [h]), if_pos hc]

/-- What `UQ_DEC` delivers (R55). -/
theorem uqDecode_ok {n : Nat} {code : Word} (sch : Scheme) (h : widthLegal n = true)
    (hc : code.toNat < 2 ^ n) :
    uqDecode n sch code = .ok
      { res0 := word32 (signed (codeSign n code.toNat) (uqdMag (codeMag n code.toNat) n sch))
        res1 := 0
        res2 := 0
        sat := false
        denorm := false } := by
  rw [uqDecode, if_neg (by simp [h]), if_neg (not_le.2 hc)]

/-- `LZC` refuses an illegal width (R59). -/
theorem leadingZeros_invalid {r : Nat} (mag : Word) (h : widthLegal r = false) :
    leadingZeros r mag = .error .invalidParameter := by
  rw [leadingZeros, if_pos h]

/-- `LZC` refuses a magnitude that reaches the sign position (R59). -/
theorem leadingZeros_domain {r : Nat} {mag : Word} (h : widthLegal r = true)
    (hm : 2 ^ (r - 1) ≤ mag.toNat) : leadingZeros r mag = .error .domainViolation := by
  rw [leadingZeros, if_neg (by simp [h]), if_pos hm]

/-- What `LZC` delivers (R59). -/
theorem leadingZeros_ok {r : Nat} {mag : Word} (h : widthLegal r = true)
    (hm : mag.toNat < 2 ^ (r - 1)) :
    leadingZeros r mag = .ok
      { res0 := zext32 (lzcCount mag.toNat r), res1 := 0, res2 := 0
        sat := false, denorm := false } := by
  rw [leadingZeros, if_neg (by simp [h]), if_neg (not_le.2 hm)]

/-- `FLP_ENC` errs exactly when its configuration is illegal (R63). -/
theorem flpEncode_invalid {rs rm : Nat} (value : Word) (h : flpLegal rs rm = false) :
    flpEncode rs rm value = .error .invalidParameter := by
  rw [flpEncode, if_pos h]

/-- What `FLP_ENC` delivers, for the magnitude code and the codeword of its first step (R63). -/
theorem flpEncode_ok {rs rm : Nat} (value : Word) (h : flpLegal rs rm = true) {m : Nat × Bool}
    (hm : uqeMag (magnitudeOf value) (2 ^ Config.fb) (fullWidth rs rm) .midtread = m) {c : Nat}
    (hc : codeword (fullWidth rs rm) (signOf value) m.1 = c) :
    flpEncode rs rm value = .ok
      { res0 := zext32 (flpNormalize c rs rm).1
        res1 := zext32 (flpNormalize c rs rm).2
        res2 := zext32 c
        sat := m.2
        denorm := (flpNormalize c rs rm).1 == 0 } := by
  subst hm hc
  rw [flpEncode, if_neg (by simp [h])]

/-- `FLP_DEC` refuses an illegal configuration (R66). -/
theorem flpDecode_invalid {rs rm : Nat} (scale mantissa : Word) (h : flpLegal rs rm = false) :
    flpDecode rs rm scale mantissa = .error .invalidParameter := by
  rw [flpDecode, if_pos h]

/-- `FLP_DEC` refuses a scale or a mantissa that exceeds its width (R66). -/
theorem flpDecode_domain {rs rm : Nat} {scale mantissa : Word} (h : flpLegal rs rm = true)
    (hd : 2 ^ rs - 1 < scale.toNat ∨ 2 ^ rm - 1 < mantissa.toNat) :
    flpDecode rs rm scale mantissa = .error .domainViolation := by
  rw [flpDecode, if_neg (by simp [h])]
  rcases hd with hd | hd
  · rw [if_pos hd]
  · rw [if_pos hd, ite_self]

/-- What `FLP_DEC` delivers, for the codeword of R64 (R66). -/
theorem flpDecode_ok {rs rm : Nat} {scale mantissa : Word} (h : flpLegal rs rm = true)
    (hs : scale.toNat ≤ 2 ^ rs - 1) (hm : mantissa.toNat ≤ 2 ^ rm - 1) {c : Nat}
    (hc : flpCode scale.toNat mantissa.toNat rs rm = c) :
    flpDecode rs rm scale mantissa = .ok
      { res0 := word32 (signed (codeSign (fullWidth rs rm) c)
          (uqdMag (codeMag (fullWidth rs rm) c) (fullWidth rs rm) .midtread))
        res1 := zext32 c
        res2 := 0
        sat := false
        denorm := scale.toNat == 0 } := by
  subst hc
  rw [flpDecode, if_neg (by simp [h]), if_neg (not_lt.2 hs), if_neg (not_lt.2 hm)]

/-- Every command ends, and its end is `finish` of a result. -/
theorem exec_finishes (i : Instr) (s : State) : ∃ r, exec i s = .next (s.finish r) := by
  cases i with
  | uqEnc nb sch => exact ⟨_, exec_uqEnc nb sch s⟩
  | uqDec nb sch => exact ⟨_, exec_uqDec nb sch s⟩
  | lzc nb => exact ⟨_, exec_lzc nb s⟩
  | flpEnc rs rm => exact ⟨_, exec_flpEnc rs rm s⟩
  | flpDec rs rm => exact ⟨_, exec_flpDec rs rm s⟩

/-- The only error the decoder reports is `IllegalCommand` (R41). -/
theorem decode_error {v : Word} {e : CommandError} (h : decode v = .error e) :
    e = .illegalCommand := by
  unfold decode at h
  split_ifs at h
  cases h
  rfl

/-- A command word runs the command it selects or raises `IllegalCommand` (R41). -/
theorem execute_cases (v : Word) (s : State) :
    (∃ i, decode v = .ok i ∧ execute v s = exec i s) ∨
      (decode v = .error .illegalCommand ∧ execute v s = .next (s.raise .illegalCommand)) := by
  unfold execute
  cases h : decode v with
  | ok i => exact .inl ⟨i, rfl, rfl⟩
  | error e =>
    obtain rfl := decode_error h
    exact .inr ⟨rfl, rfl⟩

/-- A command word ends in `finish` of a result: it never stops the machine. -/
theorem execute_finishes (v : Word) (s : State) : ∃ r, execute v s = .next (s.finish r) := by
  rcases execute_cases v s with ⟨i, -, h⟩ | ⟨-, h⟩
  · obtain ⟨r, hr⟩ := exec_finishes i s
    exact ⟨r, h.trans hr⟩
  · exact ⟨.error .illegalCommand, h⟩

/-- What `Execute(v)` delivers is read from the registers: it is the same in two states that have
the same ones, whatever stands on the bus and was answered (R12, R41). -/
theorem execute_finishes_alike (v : Word) {s s' : State} (h : s.regs = s'.regs) :
    ∃ r, execute v s = .next (s.finish r) ∧ execute v s' = .next (s'.finish r) := by
  unfold execute
  cases decode v with
  | error e => exact ⟨.error e, rfl, rfl⟩
  | ok i =>
    cases i <;> exact ⟨_, rfl, by simp only [exec_uqEnc, exec_uqDec, exec_lzc, exec_flpEnc,
      exec_flpDec, h]⟩

end Sys2Proof.Machine
end

