-- ==== Sys2Proof/Laws/Access.lean ====
section
/-! SUPPORT. What one access and one step can do, said once (20_memory.md R26 to R30;
70_reset_and_hazards.md R84, R85, R89). -/

namespace Sys2Proof.Machine

/-- The register map read back: the register at a register's own offset is that register (R13). -/
@[simp] theorem regAt_offset (r : RegName) : regAt r.offset = some r := by cases r <;> rfl

/-- An access is not answered, not AQC's, refused or served, as R26, R28 and R85 say. -/
theorem route_cases (s : State) (addr size : Nat) :
    (s.inReset = true ∧ route s addr size = .inReset) ∨
    (s.inReset = false ∧ (addr < s.base ∨ s.base + 64 ≤ addr) ∧ route s addr size = .outside) ∨
    (s.inReset = false ∧ s.base ≤ addr ∧ addr < s.base + 64 ∧
      (size ≠ 4 ∨ (addr - s.base) % 4 ≠ 0) ∧ route s addr size = .refused) ∨
    (s.inReset = false ∧ s.base ≤ addr ∧ addr < s.base + 64 ∧ size = 4 ∧
      (addr - s.base) % 4 = 0 ∧ route s addr size = .served (addr - s.base)) := by
  unfold route State.windowOffset
  cases hr : s.inReset
  · by_cases hw : s.base ≤ addr ∧ addr < s.base + 64
    · by_cases ha : size = 4 ∧ (addr - s.base) % 4 = 0
      · simp [hw, ha]
      · simp only [not_and_or] at ha
        simp only [Config.windowBytes, hw, and_self, ite_true]
        right; right; left
        refine ⟨trivial, trivial, trivial, ha, ?_⟩
        rw [if_neg (by simp), if_neg (by tauto)]
    · have hw' : addr < s.base ∨ s.base + 64 ≤ addr := by omega
      simp [hw, hw']
  · simp

/-- The offset at which a served access reaches the register at its own address (R13, R26). -/
theorem route_address (s : State) (r : RegName) (h : s.inReset = false) :
    route s (s.address r) 4 = .served r.offset := by
  cases r <;> simp [route, State.windowOffset, State.address, h, RegName.offset]

/-- A served access at an offset below 64 goes to the register there (R26, R28). -/
theorem route_base_add (s : State) (off : Nat) (h : s.inReset = false) (ho : off < 64)
    (ha : off % 4 = 0) : route s (64 * s.baseBlock + off) 4 = .served off := by
  simp [route, State.windowOffset, State.base, h, ho, ha]

/-- What a register write can do (R30). -/
theorem writeRegister_cases (r : Option RegName) (v : Word) (s : State) :
    (r = some .ctrl ∧ v.getLsbD 0 = true ∧ writeRegister r v s = .next s.softReset) ∨
    (r = some .status ∧ v.getLsbD 8 = true ∧ writeRegister r v s = .next s.clearSticky) ∨
    (r = some .maxr ∧ writeRegister r v s = .next (s.setMaxr v)) ∨
    (r = some .opa ∧ writeRegister r v s = .next (s.setOpa v)) ∨
    (r = some .opb ∧ writeRegister r v s = .next (s.setOpb v)) ∨
    (r = some .cmd ∧ writeRegister r v s = execute v (s.setCmd v)) ∨
    (r ≠ some .maxr ∧ r ≠ some .opa ∧ r ≠ some .opb ∧ r ≠ some .cmd ∧
      (r = some .ctrl → v.getLsbD 0 = false) ∧ (r = some .status → v.getLsbD 8 = false) ∧
      writeRegister r v s = .next s) := by
  cases r with
  | none => simp [writeRegister]
  | some r =>
    cases r with
    | ctrl => cases h : v.getLsbD 0 <;> simp [writeRegister, h, -BitVec.getLsbD_eq_getElem]
    | status => cases h : v.getLsbD 8 <;> simp [writeRegister, h, -BitVec.getLsbD_eq_getElem]
    | _ => simp [writeRegister]

/-- A served offset that maps to a register is that register's own offset (R13). -/
theorem offset_of_regAt {off : Nat} {r : RegName} (h : regAt off = some r) : r.offset = off := by
  unfold regAt at h
  split at h <;> cases h <;> rfl

/-- An address in the window whose offset maps to a register is that register's address (R13, R26). -/
theorem address_of_regAt {s : State} {addr : Nat} {r : RegName} (h1 : s.base ≤ addr)
    (h2 : regAt (addr - s.base) = some r) : addr = s.address r := by
  have h3 := offset_of_regAt h2
  rw [State.address, h3]
  omega

/-- The step that takes a served write is the register write (R30). -/
theorem step_write {s : State} {r : RegName} {v : Word} {rest : List Event}
    (h : s.inReset = false) (hb : s.bus = .write (s.address r) 4 v :: rest) :
    step s = writeRegister (some r) v ((s.withBus rest).reply .written) := by
  have hr := route_address (s.withBus rest) r h
  have ha : s.address r = (s.withBus rest).address r := rfl
  rw [step, hb]
  simp only [answer, hostWrite, ha, hr, regAt_offset]

/-- The step that takes a served read answers with the register and changes nothing else (R29). -/
theorem step_read {s : State} {r : RegName} {rest : List Event}
    (h : s.inReset = false) (hb : s.bus = .read (s.address r) 4 :: rest) :
    step s = .next ((s.withBus rest).reply (.data (s.regs.read (some r)))) := by
  have hr := route_address (s.withBus rest) r h
  have ha : s.address r = (s.withBus rest).address r := rfl
  rw [step, hb]
  simp only [answer, hostRead, ha, hr, regAt_offset, State.withBus_regs]

/-- What a step that goes on can be, input by input (R29, R30, R79, R85, R89). -/
theorem step_cases {s t : State} (h : step s = .next t) :
    (s.bus = [] ∧ t = s) ∨
    (∃ rest lvl, s.bus = .resetInput lvl :: rest ∧ t = (s.withBus rest).driveReset lvl) ∨
    (∃ rest e, s.bus = e :: rest ∧ e.isResetInput = false ∧ s.inReset = false ∧
      t = (s.withBus rest).busError) ∨
    (∃ rest addr, s.bus = .read addr 4 :: rest ∧ s.inReset = false ∧ s.base ≤ addr ∧
      addr < s.base + 64 ∧ (addr - s.base) % 4 = 0 ∧
      t = (s.withBus rest).reply (.data (s.regs.read (regAt (addr - s.base))))) ∨
    (∃ rest addr v, s.bus = .write addr 4 v :: rest ∧ s.inReset = false ∧ s.base ≤ addr ∧
      addr < s.base + 64 ∧ (addr - s.base) % 4 = 0 ∧
      writeRegister (regAt (addr - s.base)) v ((s.withBus rest).reply .written) = .next t) := by
  unfold step at h
  cases hb : s.bus with
  | nil =>
    rw [hb] at h
    cases h
    exact .inl ⟨rfl, rfl⟩
  | cons e rest =>
    rw [hb] at h
    have hbase : (s.withBus rest).base = s.base := rfl
    cases e with
    | resetInput lvl =>
      cases h
      exact .inr (.inl ⟨rest, lvl, rfl, rfl⟩)
    | read addr size =>
      simp only [answer, hostRead] at h
      rcases route_cases (s.withBus rest) addr size with
        ⟨-, hr⟩ | ⟨-, -, hr⟩ | ⟨hi, -, -, -, hr⟩ | ⟨hi, h1, h2, rfl, h4, hr⟩ <;> rw [hr] at h <;>
        cases h
      · exact .inr (.inr (.inl ⟨rest, _, rfl, rfl, hi, rfl⟩))
      · exact .inr (.inr (.inr (.inl ⟨rest, addr, rfl, hi, h1, h2, h4, rfl⟩)))
    | write addr size v =>
      simp only [answer, hostWrite] at h
      rcases route_cases (s.withBus rest) addr size with
        ⟨-, hr⟩ | ⟨-, -, hr⟩ | ⟨hi, -, -, -, hr⟩ | ⟨hi, h1, h2, rfl, h4, hr⟩ <;> rw [hr] at h
      · cases h
      · cases h
      · cases h
        exact .inr (.inr (.inl ⟨rest, _, rfl, rfl, hi, rfl⟩))
      · exact .inr (.inr (.inr (.inr ⟨rest, addr, v, rfl, hi, h1, h2, h4, h⟩)))

end Sys2Proof.Machine
end

