-- ==== Sys2Proof/Laws/Floating.lean ====
section
/-! SUPPORT. The spec lemmas of the floating-point quantizer's two shared operations: normalization
(42_floating_point_quantizer.md R62), in its two cases, and the reconstructed magnitude (R64). -/

namespace Sys2Proof.Machine

/-- The largest scale is at least 1 (R61). -/
theorem two_le_two_pow {rs : Nat} (h : 1 ≤ rs) : 2 ≤ 2 ^ rs :=
  Nat.pow_le_pow_right (n := 2) (by omega) h

/-- R62's mask and shift take the `rm - 1` bits from bit `shift` up. -/
theorem mask_shift (rm shift a : Nat) :
    (((2 ^ (rm - 1) - 1) <<< shift) &&& a) >>> shift = (a >>> shift) % 2 ^ (rm - 1) := by
  rw [Nat.shiftRight_and_distrib, Nat.shiftLeft_shiftRight, Nat.and_comm,
    Nat.and_two_pow_sub_one_eq_mod]

/-- The denormalized case of R62: a magnitude of at most `rm - 1` bits is kept whole. -/
theorem flpNormalize_denormalized {rs rm a : Nat} (neg : Bool) (h1 : 1 ≤ rs) (h2 : 1 ≤ rm)
    (ha : a < 2 ^ (rm - 1)) :
    flpNormalize (codeword (fullWidth rs rm) neg a) rs rm = (0, codeword rm neg a) := by
  have hE := two_le_two_pow h1
  have hr : fullWidth rs rm = 2 ^ rs - 1 + rm := rfl
  have ha' : a < 2 ^ (fullWidth rs rm - 1) :=
    lt_of_lt_of_le ha (Nat.pow_le_pow_right (by omega) (by omega))
  have hz : maxScale rs ≤ lzcCount a (fullWidth rs rm) := by
    unfold lzcCount maxScale
    split_ifs with h0
    · omega
    · have hb : bitlen a - 1 < rm - 1 := by
        by_contra hc
        have := Nat.pow_le_pow_right (n := 2) (by omega) (not_lt.1 hc)
        have := (bitlen_spec h0).1
        omega
      omega
  unfold flpNormalize
  simp only [codeSign_codeword neg ha', codeMag_codeword neg (by omega) ha', if_neg (not_lt.2 hz)]
  rfl

/-- The normalized case of R62: with the leading one at bit `rm - 2 + scale`, the mantissa keeps the
`rm - 1` bits below it. -/
theorem flpNormalize_normalized {rs rm a scale : Nat} (neg : Bool) (h1 : 1 ≤ rs) (h2 : 1 ≤ rm)
    (hs : 1 ≤ scale) (ha : a < 2 ^ (fullWidth rs rm - 1)) (hl : 2 ^ (rm + scale - 2) ≤ a)
    (hu : a < 2 ^ (rm + scale - 1)) :
    scale ≤ maxScale rs ∧
      flpNormalize (codeword (fullWidth rs rm) neg a) rs rm =
        (scale, codeword rm neg (a / 2 ^ (scale - 1) % 2 ^ (rm - 1))) := by
  have hE := two_le_two_pow h1
  have hr : fullWidth rs rm = 2 ^ rs - 1 + rm := rfl
  have he : maxScale rs = 2 ^ rs - 1 := rfl
  have hsc : scale ≤ maxScale rs := by
    have := (Nat.pow_lt_pow_iff_right (by omega : 1 < 2)).1 (lt_of_le_of_lt hl ha)
    omega
  have h0 : a ≠ 0 := by
    have := Nat.two_pow_pos (rm + scale - 2)
    omega
  have hb := bitlen_eq hl (by rwa [show rm + scale - 2 + 1 = rm + scale - 1 by omega])
  have hz : lzcCount a (fullWidth rs rm) = maxScale rs - scale := by
    unfold lzcCount
    rw [if_neg h0, hb]
    omega
  refine ⟨hsc, ?_⟩
  unfold flpNormalize
  simp only [codeSign_codeword neg ha, codeMag_codeword neg (by omega) ha, hz]
  have e1 : fullWidth rs rm - (maxScale rs - scale) - rm - 1 = scale - 1 := by omega
  have e2 : maxScale rs - (maxScale rs - scale) = scale := by omega
  rw [if_pos (by omega), e1, e2, mask_shift, Nat.shiftRight_eq_div_pow]
  rfl

/-- The magnitude of R64 as a sum: the leading one, the mantissa bits below it and the midpoint bit
below those stand side by side. -/
theorem flpMagnitude_eq (scale mantissa : Nat) {rm : Nat} (h : 1 ≤ rm) :
    flpMagnitude scale mantissa rm =
      if scale = 0 then mantissa % 2 ^ (rm - 1)
      else 2 ^ (rm + scale - 2) + mantissa % 2 ^ (rm - 1) * 2 ^ (scale - 1) +
        (if 2 ≤ scale then 2 ^ (scale - 2) else 0) := by
  unfold flpMagnitude
  simp only [Nat.and_two_pow_sub_one_eq_mod]
  have hml : mantissa % 2 ^ (rm - 1) < 2 ^ (rm - 1) := Nat.mod_lt _ (Nat.two_pow_pos _)
  generalize mantissa % 2 ^ (rm - 1) = ml at hml
  split_ifs with h0 h2
  · rfl
  · have e1 : 2 ^ (rm + scale - 2) = 2 ^ (scale - 1) * 2 ^ (rm - 1) := by
      rw [← pow_add]
      congr 1
      omega
    have l1 : ml <<< (scale - 1) < 2 ^ (rm + scale - 2) := by
      rw [Nat.shiftLeft_eq, e1, mul_comm]
      exact (Nat.mul_lt_mul_left (Nat.two_pow_pos _)).2 hml
    have a1 : 1 <<< (rm + scale - 2) ||| ml <<< (scale - 1) =
        2 ^ (scale - 1) * (2 ^ (rm - 1) + ml) := by
      have := Nat.two_pow_add_eq_or_of_lt l1 1
      rw [Nat.one_shiftLeft]
      rw [mul_one] at this
      rw [← this, Nat.shiftLeft_eq, e1]
      ring
    have l2 : 1 <<< (scale - 2) < 2 ^ (scale - 1) := by
      rw [Nat.one_shiftLeft]
      exact Nat.pow_lt_pow_right (by omega) (by omega)
    rw [a1, ← Nat.two_pow_add_eq_or_of_lt l2, Nat.one_shiftLeft, e1]
    ring
  · obtain rfl : scale = 1 := by omega
    have := Nat.two_pow_add_eq_or_of_lt hml 1
    simpa [Nat.shiftLeft_eq] using this.symm

/-- The codeword of R64 is the mantissa's sign above that magnitude. -/
theorem flpCode_eq (scale mantissa rs rm : Nat) :
    flpCode scale mantissa rs rm =
      codeword (fullWidth rs rm) (mantissa.testBit (rm - 1)) (flpMagnitude scale mantissa rm) := rfl

end Sys2Proof.Machine
end

