-- ==== Sys2Proof/Laws/PerInstr.lean ====
section
/-! SUPPORT. Facts about each command as syntax, one lemma per constructor of `Instr`. -/

namespace Sys2Proof.Laws

/-- The command word of a well-formed command is selected by the command's own row of the table
(30_encoding.md R37, R40). -/
def EncodeSelectsRow.Statement (i : Instr) : Prop :=
  i.wellFormed = true → i.row.selects (encode i) = true

theorem EncodeSelectsRow.uqEnc (nb : Nat) (sch : Scheme) :
    EncodeSelectsRow.Statement (.uqEnc nb sch) := by
  have key : ∀ n < 32, ∀ c < 2, uqEncRow.selects (commandWord 1 c n 0 0) = true := by decide
  intro h
  refine key nb (by simpa [Instr.wellFormed, nbFits] using h) (schemeCode sch) ?_
  cases sch <;> decide

theorem EncodeSelectsRow.uqDec (nb : Nat) (sch : Scheme) :
    EncodeSelectsRow.Statement (.uqDec nb sch) := by
  have key : ∀ n < 32, ∀ c < 2, uqDecRow.selects (commandWord 2 c n 0 0) = true := by decide
  intro h
  refine key nb (by simpa [Instr.wellFormed, nbFits] using h) (schemeCode sch) ?_
  cases sch <;> decide

theorem EncodeSelectsRow.lzc (nb : Nat) : EncodeSelectsRow.Statement (.lzc nb) := by
  have key : ∀ n < 32, lzcRow.selects (commandWord 3 0 n 0 0) = true := by decide
  intro h
  exact key nb (by simpa [Instr.wellFormed, nbFits] using h)

theorem EncodeSelectsRow.flpEnc (rs rm : Nat) : EncodeSelectsRow.Statement (.flpEnc rs rm) := by
  have key : ∀ a < 8, ∀ b < 32, flpEncRow.selects (commandWord 4 0 0 a b) = true := by decide
  intro h
  obtain ⟨h1, h2⟩ : rs < 8 ∧ rm < 32 := by simpa [Instr.wellFormed, rsFits, rmFits] using h
  exact key rs h1 rm h2

theorem EncodeSelectsRow.flpDec (rs rm : Nat) : EncodeSelectsRow.Statement (.flpDec rs rm) := by
  have key : ∀ a < 8, ∀ b < 32, flpDecRow.selects (commandWord 5 0 0 a b) = true := by decide
  intro h
  obtain ⟨h1, h2⟩ : rs < 8 ∧ rm < 32 := by simpa [Instr.wellFormed, rsFits, rmFits] using h
  exact key rs h1 rm h2

end Sys2Proof.Laws
end

