-- ==== Sys2Proof/Laws/Runs.lean ====
section
/-! SUPPORT. Runs of AQC, one step at a time (70_reset_and_hazards.md R89). -/

namespace Sys2Proof.Machine

/-- A run of no steps. -/
theorem run_zero (s : State) : Host.Core.run Sys2Proof.core 0 s = .next s := rfl

/-- A run whose first step goes on goes on from there. -/
theorem run_succ {s t : State} (h : step s = .next t) (n : Nat) :
    Host.Core.run Sys2Proof.core (n + 1) s = Host.Core.run Sys2Proof.core n t := by
  have h' : Sys2Proof.core.step s = .next t := h
  have hr := Host.Core.run.eq_2 Sys2Proof.core s n
  rw [h'] at hr
  exact hr

/-- A run whose first step faults has faulted. -/
theorem run_succ_fault {s : State} {f : Fault} (h : step s = .fault f) (n : Nat) :
    Host.Core.run Sys2Proof.core (n + 1) s = .fault f := by
  have h' : Sys2Proof.core.step s = .fault f := h
  have hr := Host.Core.run.eq_2 Sys2Proof.core s n
  rw [h'] at hr
  exact hr

end Sys2Proof.Machine
end

