-- ==== Sys2Proof/Tests/Slice0.lean ====
section
/-! SUPPORT. Tests of one step each, with the expected words taken from spec/95_test_vectors.md, and
for every statement with hypotheses a witness that meets them. -/

namespace Sys2Proof.Tests

open Sys2Proof Sys2Proof.Machine

/-! ### Well-formedness and decoding -/

theorem test_nb_32_is_refused : nbFits 32 = false := by decide
theorem test_rs_8_is_refused : rsFits 8 = false := by decide
theorem test_rm_32_is_refused : rmFits 32 = false := by decide

/-- One ill-formed term for each check; the assembler refuses each (R46). -/
theorem test_illFormed_terms_are_refused :
    (Instr.uqEnc 32 .midtread).wellFormed = false ∧ (Instr.uqDec 32 .midrise).wellFormed = false ∧
    (Instr.lzc 32).wellFormed = false ∧ (Instr.flpEnc 8 5).wellFormed = false ∧
    (Instr.flpEnc 3 32).wellFormed = false ∧ (Instr.flpDec 8 5).wellFormed = false ∧
    (Instr.flpDec 3 32).wellFormed = false ∧ assemble (.lzc 32) = none := by decide

/-- `000 00000 00000 000 000 nnnnn 000 s 0001` with n = 10101, s = 1 (R40). -/
theorem test_decode_uqEnc_word :
    decodeTableWord 32 0b00000000000000000001010100010001 = some (.uqEnc 21 .midrise) := by decide
/-- `000 00000 00000 000 000 nnnnn 000 s 0010` with n = 01000, s = 0 (R40). -/
theorem test_decode_uqDec_word :
    decodeTableWord 32 0b00000000000000000000100000000010 = some (.uqDec 8 .midtread) := by decide
/-- `000 00000 00000 000 000 nnnnn 000 0 0011` with n = 01100 (R40). -/
theorem test_decode_lzc_word :
    decodeTableWord 32 0b00000000000000000000110000000011 = some (.lzc 12) := by decide
/-- `000 mmmmm 00000 rrr 000 00000 000 0 0100` with m = 00101, r = 011 (R40). -/
theorem test_decode_flpEnc_word :
    decodeTableWord 32 0b00000101000000110000000000000100 = some (.flpEnc 3 5) := by decide
/-- `000 mmmmm 00000 rrr 000 00000 000 0 0101` with m = 01001, r = 100 (R40). -/
theorem test_decode_flpDec_word :
    decodeTableWord 32 0b00001001000001000000000000000101 = some (.flpDec 4 9) := by decide

/-- The illegal words of 95_test_vectors.md section 2.6. -/
theorem test_decode_illegal_words :
    [0x00000000, 0x00000006, 0x0000000F, 0x00000821, 0x00010801, 0x01000801, 0x20000801,
      0x00000C13, 0x05030014, 0x05030804, 0x05080005].map (decodeTableWord 32) =
      List.replicate 11 none := by decide

/-! ### One step from a small state -/

/-- The reset state with the operand registers given. -/
def loaded (maxr opa opb : Word) : State :=
  { State.reset with regs := { Regs.reset with maxr := maxr, opa := opa, opb := opb } }

/-- The registers of a next state. -/
def regsOf : Host.Outcome State Fault Refusal → Option Regs
  | .next t => some t.regs
  | .fault _ => none
  | .refused _ => none

/-- `RES0`, `RES1`, `RES2` and `STATUS` after one command word. -/
def results (s : State) (w : Nat) : Option (Word × Word × Word × Word) :=
  (regsOf (step (s.withFetchWord 32 w))).map fun r => (r.res0, r.res1, r.res2, statusWord r)

/-- Row "-0.25, negative midrise" of section 2.1. -/
theorem test_uqEnc_negative_midrise :
    results (loaded 0x01000000#32 0xFFC00000#32 0) 0x0811 =
      some (0xA0#32, 0xFFFFFFE0#32, 0x20#32, 0#32) := by decide
/-- Row "max_range 2.0: clamp of R51" of section 2.1. -/
theorem test_uqEnc_clamp_above_one :
    results (loaded 0x02000000#32 0x01800000#32 0) 0x0811 =
      some (0x7F#32, 0x7F#32, 0x7F#32, 0x10#32) := by decide
/-- Row "-64 midtread" of section 2.2. -/
theorem test_uqDec_negative_midtread :
    results (loaded 0x01000000#32 0xC0#32 0) 0x0802 =
      some (0xFF7F7F7F#32, 0#32, 0#32, 0#32) := by decide
/-- Row "two's-complement -5 is not a codeword" of section 2.2. -/
theorem test_uqDec_refuses_wide_codeword :
    results (loaded 0x01000000#32 0xFFFFFFFB#32 0) 0x0802 =
      some (0#32, 0#32, 0#32, 0x102#32) := by decide
/-- Row "0xFF: leading one at bit 7" of section 2.3. -/
theorem test_lzc_counts_above_leading_one :
    results (loaded 0x01000000#32 0xFF#32 0) 0x0C03 = some (3#32, 0#32, 0#32, 0#32) := by decide
/-- Row "zero: R-1" of section 2.3. -/
theorem test_lzc_of_zero :
    results (loaded 0x01000000#32 0#32 0) 0x0C03 = some (11#32, 0#32, 0#32, 0#32) := by decide
/-- Row "-0.3" of section 2.4. -/
theorem test_flpEnc_negative_normalized :
    results (loaded 0x01000000#32 0xFFB33333#32 0) 0x05030004 =
      some (6#32, 0x13#32, 0xA66#32, 0#32) := by decide
/-- Row "sign-only mantissa 0x10" of section 2.4. -/
theorem test_flpEnc_negative_denormalized :
    results (loaded 0x01000000#32 0xFFFFFFFF#32 0) 0x05030004 =
      some (0#32, 0x10#32, 0x800#32, 0x20#32) := by decide
/-- Row "scale 5, mantissa 0xA" of section 2.5. -/
theorem test_flpDec_scale_five :
    results (loaded 0x01000000#32 5#32 0xA#32) 0x05030005 =
      some (0x00350350#32, 0x1A8#32, 0#32, 0#32) := by decide
/-- Row "mantissa 32 > 31" of section 2.5. -/
theorem test_flpDec_refuses_wide_mantissa :
    results (loaded 0x01000000#32 0#32 0x20#32) 0x05030005 =
      some (0#32, 0#32, 0#32, 0x102#32) := by decide

/-- The window of these tests stands at `BASE` = 0x4000. -/
def onBus (r : Regs) (e : Event) : State :=
  { State.reset with regs := r, baseBlock := 0x100, bus := [e] }

/-- The last reply of a next state. -/
def lastReply : Host.Outcome State Fault Refusal → Option Reply
  | .next t => t.replies.getLast?
  | .fault _ => none
  | .refused _ => none

/-- Registers with `ERR` = 2 and `STICKY` = 1, as in section 2.7. -/
def errRegs : Regs := { Regs.reset with err := 2, sticky := true }

/-- Section 2.7: `st.w STATUS, 0x0000_00FF` changes nothing, `0x0000_0100` clears `STICKY` only. -/
theorem test_status_write_one_to_clear :
    regsOf (step (onBus errRegs (.write 0x400C 4 0xFF#32))) = some errRegs ∧
    regsOf (step (onBus errRegs (.write 0x400C 4 0x100#32))) =
      some { errRegs with sticky := false } := by decide
/-- Section 2.7: reads after reset, and the packing of `STATUS`. -/
theorem test_reads :
    lastReply (step (onBus Regs.reset (.read 0x4000 4))) = some (.data 0x51430107#32) ∧
    lastReply (step (onBus Regs.reset (.read 0x4010 4))) = some (.data 0x01000000#32) ∧
    lastReply (step (onBus errRegs (.read 0x400C 4))) = some (.data 0x102#32) ∧
    lastReply (step (onBus errRegs (.read 0x4030 4))) = some (.data 0#32) := by decide
/-- Section 2.7: a 2-byte read and a misaligned write get `BusError` and change no register. -/
theorem test_bus_errors :
    lastReply (step (onBus errRegs (.read 0x4014 2))) = some .busError ∧
    lastReply (step (onBus errRegs (.write 0x4016 4 7#32))) = some .busError ∧
    regsOf (step (onBus errRegs (.write 0x4016 4 7#32))) = some errRegs := by decide
/-- R27: `MAXR` = 1.0 has its only non-zero byte at the highest address. -/
theorem test_byte_lanes :
    (Regs.reset.byteAt 0x10 3, Regs.reset.byteAt 0x10 0) = (0x01#8, 0x00#8) := by decide

/-! ### Witnesses: states and operands that meet the hypotheses of each statement -/

/-- For `DecodeOfEncodeIsTheCommand` and `AnyCommandRunsFirstAfterReset`: commands with their
arguments at the ends of their fields. -/
theorem witness_wellFormed_command :
    (Instr.uqEnc 31 .midrise).wellFormed = true ∧ (Instr.flpDec 0 31).wellFormed = true ∧
    (Instr.flpEnc 7 0).wellFormed = true ∧ (Instr.lzc 0).wellFormed = true ∧
    (Instr.uqDec 0 .midtread).wellFormed = true := by decide

/-- For `EncodeOfDecodeIsTheWord`: words that decode. -/
theorem witness_word_that_decodes :
    decode 0x00001F11#32 = .ok (.uqEnc 31 .midrise) ∧ decode 0x00000002#32 = .ok (.uqDec 0 .midtread) ∧
    decode 0x00001F03#32 = .ok (.lzc 31) ∧ decode 0x1F070004#32 = .ok (.flpEnc 7 31) ∧
    decode 0x00000005#32 = .ok (.flpDec 0 0) := by decide

/-- For `IllegalWordsAreExactlyThese`: one word for each reason of R42, at its boundary. -/
theorem witness_illegal_words :
    [0x0#32, 0x6#32, 0xF#32, 0x21#32, 0x2001#32, 0x80004#32, 0x20000004#32, 0x10001#32, 0x1000003#32,
      0x104#32, 0x1005#32, 0x13#32, 0x14#32].map decode =
      List.replicate 13 (.error .illegalCommand) := by decide

/-- For `RowsSelectByMatchAndMask`: each row selects a word, and it is listed. -/
theorem witness_rows_select :
    encodingRows.length = 5 ∧ uqEncRow ∈ encodingRows ∧ uqEncRow.selects 0x1F11#32 = true ∧
    uqDecRow.selects 0x1F12#32 = true ∧ lzcRow.selects 0x1F03#32 = true ∧
    flpEncRow.selects 0x1F070004#32 = true ∧ flpDecRow.selects 0x1F070005#32 = true := by decide

/-- For `ExecuteFollowsTheDispatch`: well-formed commands with an illegal parameter. -/
theorem witness_illegal_parameter :
    (Instr.uqEnc 1 .midtread).wellFormed = true ∧ parameterError (.uqEnc 1 .midtread) Regs.reset ∧
    parameterError (.uqEnc 2 .midtread) { Regs.reset with maxr := 0 } ∧
    (Instr.uqDec 25 .midrise).wellFormed = true ∧ parameterError (.uqDec 25 .midrise) Regs.reset ∧
    (Instr.lzc 25).wellFormed = true ∧ parameterError (.lzc 25) Regs.reset ∧
    (Instr.flpEnc 0 5).wellFormed = true ∧ parameterError (.flpEnc 0 5) Regs.reset ∧
    (Instr.flpDec 4 10).wellFormed = true ∧ parameterError (.flpDec 4 10) Regs.reset := by
  unfold parameterError
  decide

/-- For `StepRunsTheDecodedCommand`: the word of `lzc 12` on the bus. -/
theorem witness_command_on_the_bus :
    (onBus errRegs (.write 0x401C 4 0xC03#32)).inReset = false ∧
    (onBus errRegs (.write 0x401C 4 0xC03#32)).bus =
      .write (64 * (onBus errRegs (.write 0x401C 4 0xC03#32)).baseBlock + 0x1C) 4 0xC03#32 :: [] ∧
    decode 0xC03#32 = .ok (.lzc 12) := by decide

/-- For `UqEncResult`, `UniformCodeFitsItsWidth` and `NegatedValueFlipsOnlyTheSignBit`: both ends of
the widths, with `max_range` 1.0 and `2^-24`. -/
theorem witness_uqEnc_operands :
    (2 ≤ 2 ∧ 2 ≤ 24 ∧ 0 < (loaded 0x01000000#32 0xFF800000#32 0).regs.maxr.toInt) ∧
    (2 ≤ 24 ∧ 24 ≤ 24 ∧ 0 < (loaded 1#32 0x80000000#32 0).regs.maxr.toInt) := by decide

/-- For `UqDecResult`: the largest codeword of each extreme width. -/
theorem witness_uqDec_operands :
    (loaded 0 3#32 0).regs.opa.toNat < 2 ^ 2 ∧ (loaded 0 0xFFFFFF#32 0).regs.opa.toNat < 2 ^ 24 := by
  decide

/-- For `LzcResult` and `LeadingZeroCountIsMonotone`: zero, the least and the largest magnitude. -/
theorem witness_lzc_operands :
    (loaded 0 0#32 0).regs.opa = 0 ∧ (loaded 0 1#32 0).regs.opa ≠ 0 ∧
    (loaded 0 1#32 0).regs.opa.toNat < 2 ^ (2 - 1) ∧
    (loaded 0 1#32 0).regs.opa.toNat ≤ (loaded 0 0x7FFFFF#32 0).regs.opa.toNat ∧
    (loaded 0 0x7FFFFF#32 0).regs.opa.toNat < 2 ^ (24 - 1) := by decide

/-- For `FlpEncDenormalizedResult` and `FloatingCodeFitsItsWidths`, at (1, 1) and (4, 9), the
extreme configurations: the code of 0.2 at `R` = 2 is 0, and 255, the code of the value word 0x1FE
at `R` = 24, is the last denormal one. -/
theorem witness_flpEnc_denormalized :
    (1 ≤ 1 ∧ 2 ^ 1 - 1 + 1 ≤ 24 ∧ ¬ 2 ^ 24 ≤ (loaded 0 0x333333#32 0).regs.opa.toInt.natAbs ∧
      ((2 ^ (2 ^ 1 - 1 + 1) - 1) * (loaded 0 0x333333#32 0).regs.opa.toInt.natAbs + 2 ^ 24) / 2 ^ 25 <
        2 ^ (1 - 1)) ∧
    (1 ≤ 4 ∧ 1 ≤ 9 ∧ 2 ^ 4 - 1 + 9 ≤ 24 ∧ ¬ 2 ^ 24 ≤ (loaded 0 0x1FE#32 0).regs.opa.toInt.natAbs ∧
      ((2 ^ (2 ^ 4 - 1 + 9) - 1) * (loaded 0 0x1FE#32 0).regs.opa.toInt.natAbs + 2 ^ 24) / 2 ^ 25 =
        2 ^ (9 - 1) - 1) := by decide

/-- For `FlpEncNormalizedResult` at (3, 5): the first code of scale 1, and a saturated value, whose
code is the largest one, at the largest scale. -/
theorem witness_flpEnc_normalized :
    (1 ≤ 3 ∧ 1 ≤ 5 ∧ 2 ^ 3 - 1 + 5 ≤ 24 ∧ 1 ≤ 1 ∧
      ¬ 2 ^ 24 ≤ (loaded 0 0x20020#32 0).regs.opa.toInt.natAbs ∧
      2 ^ (5 + 1 - 2) ≤
        ((2 ^ (2 ^ 3 - 1 + 5) - 1) * (loaded 0 0x20020#32 0).regs.opa.toInt.natAbs + 2 ^ 24) / 2 ^ 25 ∧
      ((2 ^ (2 ^ 3 - 1 + 5) - 1) * (loaded 0 0x20020#32 0).regs.opa.toInt.natAbs + 2 ^ 24) / 2 ^ 25 <
        2 ^ (5 + 1 - 1)) ∧
    (1 ≤ 7 ∧ 2 ^ 24 ≤ (loaded 0 0xFE000000#32 0).regs.opa.toInt.natAbs ∧
      2 ^ (5 + 7 - 2) ≤ 2 ^ (2 ^ 3 - 1 + 5 - 1) - 1 ∧
      2 ^ (2 ^ 3 - 1 + 5 - 1) - 1 < 2 ^ (5 + 7 - 1)) := by decide

/-- For `FlpDecResult`, `LiteralDecodeStepsAgree` and `EveryPairIsProduced`: the least and the
largest pair of the extreme configurations. -/
theorem witness_flpDec_operands :
    (2 ^ 1 - 1 + 1 ≤ 24 ∧ (loaded 0 0#32 0#32).regs.opa.toNat ≤ 2 ^ 1 - 1 ∧
      (loaded 0 0#32 0#32).regs.opb.toNat ≤ 2 ^ 1 - 1) ∧
    (2 ^ 4 - 1 + 9 ≤ 24 ∧ (loaded 0 15#32 511#32).regs.opa.toNat ≤ 2 ^ 4 - 1 ∧
      (loaded 0 15#32 511#32).regs.opb.toNat ≤ 2 ^ 9 - 1) := by decide

/-- For `ErrorChangesExactlyTheFlags`: a word that ends in each error. -/
theorem witness_each_error :
    (regsOf (execute 0x101#32 (loaded 0x01000000#32 0x100#32 0))).map (·.err) = some 1 ∧
    (regsOf (execute 0x802#32 (loaded 0x01000000#32 0x100#32 0))).map (·.err) = some 2 ∧
    (regsOf (execute 0x006#32 (loaded 0x01000000#32 0x100#32 0))).map (·.err) = some 3 := by decide

/-- For `ResultDependsOnlyOnOperands`: two different states with the same operands. -/
theorem witness_same_operands_other_state :
    (onBus errRegs (.read 0 4)).regs.maxr = State.reset.regs.maxr ∧
    (onBus errRegs (.read 0 4)).regs.opa = State.reset.regs.opa ∧
    (onBus errRegs (.read 0 4)).regs.opb = State.reset.regs.opb ∧
    onBus errRegs (.read 0 4) ≠ State.reset := by decide

/-- For `UnlistedOperandsAreNotRead`: `LZC` with other values in `MAXR` and `OPB`, `UQ.ENC` with
another `OPB`, `FLP.DEC` with another `MAXR`. -/
theorem witness_unlisted_operands_differ :
    (loaded 1#32 5#32 2#32).regs.opa = (loaded 3#32 5#32 4#32).regs.opa ∧
    (loaded 1#32 5#32 2#32).regs.maxr = (loaded 1#32 5#32 4#32).regs.maxr ∧
    (loaded 1#32 5#32 2#32).regs.opb = (loaded 3#32 5#32 2#32).regs.opb ∧
    loaded 1#32 5#32 2#32 ≠ loaded 1#32 5#32 4#32 ∧
    loaded 1#32 5#32 2#32 ≠ loaded 3#32 5#32 2#32 ∧
    (∀ a b, Instr.lzc 8 ≠ .uqEnc a b) ∧ (∀ a b, Instr.lzc 8 ≠ .flpDec a b) :=
  ⟨rfl, rfl, rfl, by decide, by decide, fun _ _ h => Instr.noConfusion h,
    fun _ _ h => Instr.noConfusion h⟩

/-- For `UniformMagnitudeIsMonotoneAndSaturates`: `max_range` 1.0 with a magnitude at it, one below
it, and a pair in order. -/
theorem witness_magnitudes :
    (0 : Int) < 2 ^ 24 ∧ ((2 : Int) ^ 24 ≤ (2 ^ 24 : Nat)) ∧ (((2 ^ 24 - 1 : Nat) : Int) < 2 ^ 24) ∧
    (2 ^ 24 - 1 ≤ 2 ^ 31) := by decide

/-- For `NegatedValueFlipsOnlyTheSignBit`: a value that has a negation, and 0. -/
theorem witness_value_with_negation :
    (loaded 0x01000000#32 0x7FFFFFFF#32 0).regs.opa ≠ 0 ∧
    (loaded 0x01000000#32 0x7FFFFFFF#32 0).regs.opa ≠ 0x80000000#32 ∧
    (loaded 0x01000000#32 0#32 0).regs.opa = 0 ∧
    0 < (loaded 0x01000000#32 0#32 0).regs.maxr.toInt := by decide

/-- For `ReconstructionIsNearest`: the least and the largest magnitude at both extreme widths. -/
theorem witness_reconstruction_range :
    0 ≤ 2 ^ (2 - 1) - 1 ∧ 1 ≤ 2 ^ (2 - 1) - 1 ∧ 8388607 ≤ 2 ^ (24 - 1) - 1 := by decide

/-- For `UniformRoundTripIsWithinHalfAStep` and `FloatingRoundTripBound`: the largest value below
1.0, at `max_range` 1.0, of either sign. -/
theorem witness_round_trip_values :
    ((loaded 0x01000000#32 0x00FFFFFF#32 0).regs.opa.toInt.natAbs : Int) <
      (loaded 0x01000000#32 0x00FFFFFF#32 0).regs.maxr.toInt ∧
    (loaded 0x01000000#32 0x00FFFFFF#32 0).regs.opa.toInt.natAbs < 2 ^ 24 ∧
    (loaded 0x01000000#32 0xFF000001#32 0).regs.opa.toInt.natAbs < 2 ^ 24 := by decide

/-- For the clauses of `FloatingRoundTripBound` and `ReconstructionKeepsTheLeadingBits`: values with
scale 0, 1 and 2, the boundaries between the clauses, at (3, 5). -/
theorem witness_round_trip_scales :
    (results (loaded 0 0x1E01E#32 0) 0x05030004).map (·.1) = some 0#32 ∧
    (results (loaded 0 0x20020#32 0) 0x05030004).map (·.1) = some 1#32 ∧
    (results (loaded 0 0x42042#32 0) 0x05030004).map (·.1) = some 2#32 ∧
    (flpNormalize (codeword 12 false 15) 3 5).1 = 0 ∧ (flpNormalize (codeword 12 true 16) 3 5).1 = 1 ∧
    (flpNormalize (codeword 12 true 2047) 3 5).1 = 7 ∧ 2047 < 2 ^ (2 ^ 3 - 1 + 5 - 1) := by decide

/-- For `ReadReturnsTheRegister` and `WriteDoesWhatTheMapSays`: every offset of the window meets
the hypotheses. -/
theorem witness_window_accesses :
    ∀ n < 16, 4 * n < 64 ∧ 4 * n % 4 = 0 ∧
      (onBus errRegs (.read (0x4000 + 4 * n) 4)).bus =
        .read (64 * (onBus errRegs (.read (0x4000 + 4 * n) 4)).baseBlock + 4 * n) 4 :: [] ∧
      (onBus errRegs (.write (0x4000 + 4 * n) 4 1#32)).bus =
        .write (64 * (onBus errRegs (.write (0x4000 + 4 * n) 4 1#32)).baseBlock + 4 * n) 4 1#32 ::
          [] := by decide

/-- For `SoftResetRestoresEveryRegister` and `IdentificationIsConstant`. -/
theorem witness_control_writes :
    (onBus errRegs (.write 0x4008 4 0xFFFFFFFF#32)).inReset = false ∧
    (0xFFFFFFFF#32).getLsbD 0 = true ∧
    (onBus errRegs (.write 0x4000 4 0#32)).bus =
      .write (64 * (onBus errRegs (.write 0x4000 4 0#32)).baseBlock + 0x00) 4 0#32 :: [] ∧
    (onBus errRegs (.write 0x4004 4 0#32)).bus =
      .write (64 * (onBus errRegs (.write 0x4004 4 0#32)).baseBlock + 0x04) 4 0#32 :: [] := by decide

/-- A state whose reset input is asserted. -/
def held (e : Event) : State := { onBus errRegs e with inReset := true }

/-- For `HardwareResetHoldsAndReleases` and `ResetStateIsAsGiven`. -/
theorem witness_reset_input :
    (onBus errRegs (.resetInput true)).bus = .resetInput true :: [] ∧
    (held (.resetInput false)).inReset = true ∧
    (held (.resetInput false)).bus = .resetInput false :: [] ∧
    (held (.read 0x4000 4)).bus = .read 0x4000 4 :: [] ∧
    (held (.write 0x4000 4 0#32)).bus = .write 0x4000 4 0#32 :: [] := by decide

/-- For `BusErrorChangesNoRegister`: a wrong size at the first byte of the window and one that ends
with its last byte, and a wrong alignment at the highest address from which 4 bytes lie in it and
that is no multiple of 4. -/
theorem witness_refused_accesses :
    (onBus errRegs (.read 0x4000 2)).inReset = false ∧
    (onBus errRegs (.read 0x4000 2)).bus = .read 0x4000 2 :: [] ∧
    64 * (onBus errRegs (.read 0x4000 2)).baseBlock ≤ 0x4000 ∧ 2 ≠ 4 ∧
    (onBus errRegs (.read 0x403E 2)).bus = .read 0x403E 2 :: [] ∧
    0x403E + 2 = 64 * (onBus errRegs (.read 0x403E 2)).baseBlock + 64 ∧
    (onBus errRegs (.write 0x403B 4 0#32)).bus = .write 0x403B 4 0#32 :: [] ∧
    0x403B + 4 ≤ 64 * (onBus errRegs (.write 0x403B 4 0#32)).baseBlock + 64 ∧ 0x403B % 4 ≠ 0 := by
  decide

/-- For `OutsideAccessStops`: the last word below the window and the first address above it. -/
theorem witness_outside_accesses :
    (onBus errRegs (.read 0x3FFC 4)).inReset = false ∧
    (onBus errRegs (.read 0x3FFC 4)).bus = .read 0x3FFC 4 :: [] ∧
    0x3FFC < 64 * (onBus errRegs (.read 0x3FFC 4)).baseBlock ∧
    0x3FFC + 4 ≤ 64 * (onBus errRegs (.read 0x3FFC 4)).baseBlock ∧
    (onBus errRegs (.write 0x4040 4 0#32)).bus = .write 0x4040 4 0#32 :: [] ∧
    64 * (onBus errRegs (.write 0x4040 4 0#32)).baseBlock + 64 ≤ 0x4040 := by decide

/-- For `StraddlingAccessIsDecidedByItsFirstByte`: one byte past the end, three bytes past it, and
one byte of the window reached from below. -/
theorem witness_straddling_accesses :
    (onBus errRegs (.read 0x403D 4)).bus = .read 0x403D 4 :: [] ∧
    64 * (onBus errRegs (.read 0x403D 4)).baseBlock + 64 < 0x403D + 4 ∧
    0x403F < 64 * (onBus errRegs (.write 0x403F 4 0#32)).baseBlock + 64 ∧
    64 * (onBus errRegs (.write 0x403F 4 0#32)).baseBlock + 64 < 0x403F + 4 ∧
    (onBus errRegs (.read 0x3FFD 4)).bus = .read 0x3FFD 4 :: [] ∧
    0x3FFD < 64 * (onBus errRegs (.read 0x3FFD 4)).baseBlock ∧
    64 * (onBus errRegs (.read 0x3FFD 4)).baseBlock < 0x3FFD + 4 := by decide

/-- For `StickyChangesOnlyAsStated`, `OutcomeChangesOnlyByCommandsAndResets` and
`OperandRegistersHoldTheLastWrite`: an input of each kind that their clauses name. -/
theorem witness_next_writes :
    (onBus Regs.reset (.write 0x401C 4 6#32)).WritesNext .cmd 6#32 ∧
    (onBus Regs.reset (.write 0x401C 4 0xC03#32)).WritesNext .cmd 0xC03#32 ∧
    (onBus errRegs (.write 0x4010 4 7#32)).WritesNext .maxr 7#32 ∧
    (onBus errRegs (.write 0x4014 4 9#32)).WritesNext .opa 9#32 ∧
    (onBus errRegs (.write 0x4018 4 8#32)).WritesNext .opb 8#32 ∧
    (onBus errRegs (.write 0x400C 4 0x100#32)).WritesNext .status 0x100#32 ∧
    (onBus errRegs (.write 0x400C 4 0xFF#32)).WritesNext .status 0xFF#32 ∧
    (onBus errRegs (.write 0x4008 4 1#32)).ResetsNext ∧ (held (.resetInput false)).ResetsNext :=
  ⟨⟨rfl, [], rfl⟩, ⟨rfl, [], rfl⟩, ⟨rfl, [], rfl⟩, ⟨rfl, [], rfl⟩, ⟨rfl, [], rfl⟩,
    ⟨rfl, [], rfl⟩, ⟨rfl, [], rfl⟩, .inl ⟨rfl, 1#32, [], rfl, by decide⟩, .inr ⟨rfl, [], rfl⟩⟩

/-- Those steps go on, and change `STICKY`, the results and the operands as the clauses say. -/
theorem witness_next_steps :
    (regsOf (step (onBus Regs.reset (.write 0x401C 4 6#32)))).map (fun r => (r.err, r.sticky)) =
      some (3, true) ∧
    (regsOf (step (onBus Regs.reset (.write 0x401C 4 0xC03#32)))).map
      (fun r => (r.err, r.sticky, r.res0)) = some (0, false, 11#32) ∧
    (regsOf (step (onBus errRegs (.write 0x400C 4 0x100#32)))).map (·.sticky) = some false ∧
    (regsOf (step (onBus errRegs (.write 0x400C 4 0xFF#32)))).map (·.sticky) = some true ∧
    (regsOf (step (onBus errRegs (.write 0x4008 4 1#32)))).map (·.sticky) = some false ∧
    (regsOf (step (held (.resetInput false)))).map (·.sticky) = some false ∧
    (regsOf (step (onBus errRegs (.write 0x4014 4 9#32)))).map (·.opa) = some 9#32 := by decide

/-- For `StepKeepsConsistency`: a consistent state other than reset, and a step from it. -/
theorem witness_consistent_state :
    (onBus { errRegs with cmd := 0x802#32, opa := 0x100#32 } (.write 0x401C 4 0xC03#32)).Consistent ∧
    (regsOf (step (onBus { errRegs with cmd := 0x802#32, opa := 0x100#32 }
      (.write 0x401C 4 0xC03#32)))).map (·.err) = some 0 := by
  unfold State.Consistent Regs.StatusFits Regs.ResultsFit
  decide

/-- A window state with several inputs pending. -/
def program (es : List Event) : State := { State.reset with baseBlock := 0x100, bus := es }

/-- For `ReadReturnsTheLatestWrite`: between a write of `OPA` and the read back, a read of the
register itself and of the last word of the window, a write of another register, a write of `CTRL`
with bit 0 clear and a command. -/
theorem witness_write_then_accesses :
    let between : List Event := [ldW (program []) .opa, .read 0x403C 4, stW (program []) .opb 5#32,
      stW (program []) .ctrl 0xFFFFFFFE#32, stW (program []) .cmd 0xC03#32]
    let s := program (stW (program []) .opa 7#32 :: (between ++ [ldW (program []) .opa]))
    s.inReset = false ∧ (∀ e ∈ between, e.leaves s .opa = true) ∧
    s.bus = stW s .opa 7#32 :: (between ++ [ldW s .opa]) := by decide

/-- What `Event.leaves` shuts out: a second write of the register and a soft reset. -/
theorem test_leaves_refuses :
    (stW (program []) .opa 7#32).leaves (program []) .opa = false ∧
    (stW (program []) .ctrl 1#32).leaves (program []) .opa = false := by decide

/-- For `ReadsAfterACommandSeeItsOutcome`: reads of a result, of `STATUS` and of the last word of
the window. -/
theorem witness_command_then_reads :
    let reads : List Event := [.read 0x4020 4, .read 0x400C 4, .read 0x403C 4]
    let s := program (stW (program []) .cmd 6#32 :: reads)
    s.inReset = false ∧ (∀ e ∈ reads, e.orderlyRead s.base = true) ∧
    s.bus = stW s .cmd 6#32 :: reads := by decide

/-- For `HostProgramRunsToItsEnd`: the host program `uqenc 8, midtread, 0.5` and a read. -/
theorem witness_orderly_program :
    (program (uqencProgram (program []) 8 .midtread 0x00800000#32 ++
      [ldW (program []) .res0])).Orderly := by
  unfold State.Orderly
  decide

end Sys2Proof.Tests
end

