-- ==== Sys2Proof/Proofs/Scope.lean ====
section
/-! PROOF. The parameters of 00_scope.md: the legal floating-point configurations (R5). -/

namespace Sys2Proof.Machine

/-- `R = 2^Rs - 1 + Rm ≤ 24` limits `Rs` to 4, since `2^5 - 1` is already above 24 (R5). -/
theorem scaleBits_le_four_of_flpLegal {rs rm : Nat} (h : flpLegal rs rm = true) : rs ≤ 4 := by
  obtain ⟨-, -, hwidth⟩ := (flpLegal_iff rs rm).1 h
  by_contra hrs
  have hpow : 2 ^ 5 ≤ 2 ^ rs := Nat.pow_le_pow_right (by decide) (by omega)
  omega

/-- Settles O27: `Rs` is at most 4, and for each `Rs` the full resolution leaves `Rm` its range. -/
theorem legalFloatingConfigurations : Obligations.LegalFloatingConfigurations := by
  intro rs rm
  constructor
  · intro h
    have hmax : rs ≤ 4 := scaleBits_le_four_of_flpLegal h
    obtain ⟨hmin, hrm, hwidth⟩ := (flpLegal_iff rs rm).1 h
    interval_cases rs <;> omega
  · rw [flpLegal_iff]
    rintro (⟨rfl, hrm⟩ | ⟨rfl, hrm⟩ | ⟨rfl, hrm⟩ | ⟨rfl, hrm⟩) <;> omega

end Sys2Proof.Machine
end

/-! PROOF. The registers of 10_state.md over commands and steps: what a command delivers is a function
of its word and three operand registers (R12), what a step can do to the registers, and from these
two the statements of the family (R14, R16 to R22, R24). -/

namespace Sys2Proof.Machine

/-! ### What a command delivers (R12) -/

/-- What a command delivers to `State.finish`, from the three operand registers (R12, R44). -/
def instrResult (i : Instr) (maxr opa opb : Word) : Except CommandError Completion :=
  match i with
  | .uqEnc nb sch => uqEncode nb sch opa maxr
  | .uqDec nb sch => uqDecode nb sch opa
  | .lzc nb => leadingZeros nb opa
  | .flpEnc rs rm => flpEncode rs rm opa
  | .flpDec rs rm => flpDecode rs rm opa opb

/-- What a command word delivers to `State.finish` (R12, R41). -/
def commandResult (v maxr opa opb : Word) : Except CommandError Completion :=
  match decode v with
  | .ok i => instrResult i maxr opa opb
  | .error e => .error e

theorem commandResult_of_decode_ok {v : Word} {i : Instr} (h : decode v = .ok i)
    (maxr opa opb : Word) : commandResult v maxr opa opb = instrResult i maxr opa opb := by
  rw [commandResult, h]

theorem commandResult_of_decode_error {v : Word} {e : CommandError} (h : decode v = .error e)
    (maxr opa opb : Word) : commandResult v maxr opa opb = .error e := by
  rw [commandResult, h]

/-- Every command ends in `finish` of what it delivers. -/
theorem exec_eq_finish (i : Instr) (s : State) :
    exec i s = .next (s.finish (instrResult i s.regs.maxr s.regs.opa s.regs.opb)) := by
  cases i with
  | uqEnc nb sch => exact exec_uqEnc nb sch s
  | uqDec nb sch => exact exec_uqDec nb sch s
  | lzc nb => exact exec_lzc nb s
  | flpEnc rs rm => exact exec_flpEnc rs rm s
  | flpDec rs rm => exact exec_flpDec rs rm s

/-- Every command word ends in `finish` of what it delivers. -/
theorem execute_eq_finish (v : Word) (s : State) :
    execute v s = .next (s.finish (commandResult v s.regs.maxr s.regs.opa s.regs.opb)) := by
  rcases execute_cases v s with ⟨i, hd, he⟩ | ⟨hd, he⟩
  · rw [he, commandResult_of_decode_ok hd, exec_eq_finish]
  · rw [he, commandResult_of_decode_error hd, State.finish_error]

/-- An error never has the code of success (R68). -/
theorem errorCode_ne_zero (e : CommandError) : errorCode e ≠ 0#4 := by cases e <;> decide

/-- Settles O18: both states end in `finish` of the same delivery, and `finish` writes the flags, and
when it completes the results, from the delivery alone. -/
theorem resultDependsOnlyOnOperands : Obligations.ResultDependsOnlyOnOperands := by
  intro v s s' hmaxr hopa hopb
  refine ⟨_, _, execute_eq_finish v s, execute_eq_finish v s', ?_⟩
  rw [hmaxr, hopa, hopb]
  cases commandResult v s'.regs.maxr s'.regs.opa s'.regs.opb with
  | ok c => simp
  | error e => simp [errorCode_ne_zero]

/-! ### The next input -/

/-- The registers stand at different addresses (R13). -/
theorem address_injective {s : State} {r r' : RegName} (h : s.address r = s.address r') :
    r = r' := by
  have hoff : r.offset = r'.offset := Nat.add_left_cancel h
  have hreg : some r = some r' := by rw [← regAt_offset r, hoff, regAt_offset]
  exact Option.some.inj hreg

/-- The next input is a write of one word to one register. -/
theorem State.WritesNext.writesNext_iff {s : State} {r : RegName} {v : Word} (h : s.WritesNext r v)
    (r' : RegName) (v' : Word) : s.WritesNext r' v' ↔ r' = r ∧ v' = v := by
  constructor
  · rintro ⟨-, rest', hbus'⟩
    obtain ⟨-, rest, hbus⟩ := h
    rw [hbus] at hbus'
    simp only [List.cons.injEq, Event.write.injEq, true_and] at hbus'
    obtain ⟨⟨haddr, hword⟩, -⟩ := hbus'
    exact ⟨(address_injective haddr).symm, hword.symm⟩
  · rintro ⟨rfl, rfl⟩
    exact h

/-- A write resets the registers exactly when it is the soft reset of R84. -/
theorem State.WritesNext.resetsNext_iff {s : State} {r : RegName} {v : Word}
    (h : s.WritesNext r v) : s.ResetsNext ↔ r = .ctrl ∧ v.getLsbD 0 = true := by
  constructor
  · rintro (⟨hin, w, rest, hbus, hbit⟩ | ⟨hin, -⟩)
    · obtain ⟨rfl, rfl⟩ := (h.writesNext_iff .ctrl w).1 ⟨hin, rest, hbus⟩
      exact ⟨rfl, hbit⟩
    · simp [h.1] at hin
  · rintro ⟨rfl, hbit⟩
    obtain ⟨hin, rest, hbus⟩ := h
    exact .inl ⟨hin, v, rest, hbus, hbit⟩

/-- A reset is next: no register but `CTRL` is written next. -/
theorem State.ResetsNext.not_writesNext {s : State} (h : s.ResetsNext) {r : RegName}
    (hr : r ≠ .ctrl) (v : Word) : ¬ s.WritesNext r v :=
  fun hw => hr (hw.resetsNext_iff.1 h).1

/-- Without a register write next, only the release of the reset input resets (R85). -/
theorem resetsNext_iff_of_no_write {s : State} (h : ∀ r v, ¬ s.WritesNext r v) :
    s.ResetsNext ↔ s.inReset = true ∧ ∃ rest, s.bus = .resetInput false :: rest := by
  constructor
  · rintro (⟨hin, v, rest, hbus, -⟩ | hrel)
    · exact absurd ⟨hin, rest, hbus⟩ (h .ctrl v)
    · exact hrel
  · exact .inr

/-! ### What a step does to the registers -/

/-- What a step from `s` can make of the registers, with the input that does it. -/
inductive RegsEffect (s : State) (r : Regs) : Prop where
  /-- A soft reset or the release of the reset input (R84, R85). -/
  | reset (hreset : s.ResetsNext) (hregs : r = Regs.reset)
  /-- The host acknowledges errors (R17). -/
  | clearSticky (v : Word) (hwrite : s.WritesNext .status v) (hbit : v.getLsbD 8 = true)
      (hregs : r = { s.regs with sticky := false })
  /-- A write of `MAXR` (R18). -/
  | setMaxr (v : Word) (hwrite : s.WritesNext .maxr v) (hregs : r = { s.regs with maxr := v })
  /-- A write of `OPA` (R19). -/
  | setOpa (v : Word) (hwrite : s.WritesNext .opa v) (hregs : r = { s.regs with opa := v })
  /-- A write of `OPB` (R20). -/
  | setOpb (v : Word) (hwrite : s.WritesNext .opb v) (hregs : r = { s.regs with opb := v })
  /-- A command that completes (R72). -/
  | completes (v : Word) (c : Completion) (hwrite : s.WritesNext .cmd v)
      (hresult : commandResult v s.regs.maxr s.regs.opa s.regs.opb = .ok c)
      (hregs : r = { s.regs with
        cmd := v, res0 := c.res0, res1 := c.res1, res2 := c.res2
        err := 0, sat := c.sat, denorm := c.denorm })
  /-- A command that ends in an error (R71). -/
  | errs (v : Word) (e : CommandError) (hwrite : s.WritesNext .cmd v)
      (hresult : commandResult v s.regs.maxr s.regs.opa s.regs.opb = .error e)
      (hregs : r = { s.regs with
        cmd := v, err := errorCode e, sat := false, denorm := false, sticky := true })
  /-- Any other input, or none. -/
  | unchanged (hreset : ¬ s.ResetsNext)
      (hstatus : ∀ v, s.WritesNext .status v → v.getLsbD 8 = false)
      (hmaxr : ∀ v, ¬ s.WritesNext .maxr v) (hopa : ∀ v, ¬ s.WritesNext .opa v)
      (hopb : ∀ v, ¬ s.WritesNext .opb v) (hcmd : ∀ v, ¬ s.WritesNext .cmd v)
      (hregs : r = s.regs)

/-- The registers after a step that takes a register write (R30). -/
theorem regsEffect_of_write {s t : State} {n : RegName} {v : Word} (hw : s.WritesNext n v)
    (h : step s = .next t) : RegsEffect s t.regs := by
  obtain ⟨hin, rest, hbus⟩ := id hw
  rw [step_write hin hbus] at h
  rcases writeRegister_cases (some n) v ((s.withBus rest).reply .written) with
    ⟨hn, hbit, hout⟩ | ⟨hn, hbit, hout⟩ | ⟨hn, hout⟩ | ⟨hn, hout⟩ | ⟨hn, hout⟩ | ⟨hn, hout⟩ |
    ⟨hmaxr, hopa, hopb, hcmd, hctrl, hstatus, hout⟩ <;> rw [hout] at h
  · cases h
    exact .reset (hw.resetsNext_iff.2 ⟨Option.some.inj hn, hbit⟩) rfl
  · cases h
    exact .clearSticky v (Option.some.inj hn ▸ hw) hbit rfl
  · cases h
    exact .setMaxr v (Option.some.inj hn ▸ hw) rfl
  · cases h
    exact .setOpa v (Option.some.inj hn ▸ hw) rfl
  · cases h
    exact .setOpb v (Option.some.inj hn ▸ hw) rfl
  · obtain rfl := Option.some.inj hn
    rw [execute_eq_finish] at h
    cases h
    cases hres : commandResult v s.regs.maxr s.regs.opa s.regs.opb with
    | ok c => exact .completes v c hw hres (by simp [hres])
    | error e => exact .errs v e hw hres (by simp [hres])
  · cases h
    refine .unchanged ?_ ?_ ?_ ?_ ?_ ?_ rfl
    · rw [hw.resetsNext_iff]
      rintro ⟨rfl, hbit⟩
      exact absurd hbit (Bool.eq_false_iff.1 (hctrl rfl))
    · intro w hw'
      obtain ⟨rfl, rfl⟩ := (hw.writesNext_iff .status w).1 hw'
      exact hstatus rfl
    · exact fun w hw' => hmaxr (congrArg some ((hw.writesNext_iff .maxr w).1 hw').1.symm)
    · exact fun w hw' => hopa (congrArg some ((hw.writesNext_iff .opa w).1 hw').1.symm)
    · exact fun w hw' => hopb (congrArg some ((hw.writesNext_iff .opb w).1 hw').1.symm)
    · exact fun w hw' => hcmd (congrArg some ((hw.writesNext_iff .cmd w).1 hw').1.symm)

/-- The registers after a step that takes no register write: only the release of the reset input
changes them (R29, R79, R85, R89). -/
theorem regsEffect_of_no_write {s t : State} (hw : ∀ n v, ¬ s.WritesNext n v)
    (h : step s = .next t) : RegsEffect s t.regs := by
  have keeps (hreset : ¬ s.ResetsNext) (hregs : t.regs = s.regs) : RegsEffect s t.regs :=
    .unchanged hreset (fun v hv => absurd hv (hw .status v)) (hw .maxr) (hw .opa) (hw .opb)
      (hw .cmd) hregs
  have hrel := resetsNext_iff_of_no_write hw
  rcases step_cases h with ⟨hbus, rfl⟩ | ⟨rest, lvl, hbus, rfl⟩ | ⟨rest, e, hbus, -, hin, rfl⟩ |
    ⟨rest, addr, hbus, hin, -, -, -, rfl⟩ | ⟨rest, addr, v, hbus, hin, hlow, -, -, hout⟩
  · exact keeps (by simp [hrel, hbus]) rfl
  · cases lvl with
    | true => exact keeps (by simp [hrel, hbus]) rfl
    | false =>
      cases hin : s.inReset with
      | true => exact .reset (hrel.2 ⟨hin, rest, hbus⟩) (by simp [State.driveReset_false, hin])
      | false => exact keeps (by simp [hrel, hin]) (by simp [State.driveReset_false, hin])
  · exact keeps (by simp [hrel, hin]) rfl
  · exact keeps (by simp [hrel, hin]) rfl
  · cases hreg : regAt (addr - s.base) with
    | none =>
      rw [hreg] at hout
      cases hout
      exact keeps (by simp [hrel, hin]) rfl
    | some n =>
      obtain rfl := address_of_regAt hlow hreg
      exact absurd ⟨hin, rest, hbus⟩ (hw n v)

/-- What a step that goes on does to the registers. -/
theorem regsEffect_of_step {s t : State} (h : step s = .next t) : RegsEffect s t.regs := by
  by_cases hw : ∃ n v, s.WritesNext n v
  · obtain ⟨n, v, hnv⟩ := hw
    exact regsEffect_of_write hnv h
  · exact regsEffect_of_no_write (fun n v hnv => hw ⟨n, v, hnv⟩) h

/-! ### Which registers a step changes -/

/-- Settles O42: `STICKY` moves only in the cases of a reset, an acknowledgement and a command that
errs. -/
theorem stickyChangesOnlyAsStated : Obligations.StickyChangesOnlyAsStated := by
  intro s t h
  cases regsEffect_of_step h with
  | reset hreset hregs => simp [hregs, hreset, hreset.not_writesNext, Regs.reset]
  | clearSticky v hwrite hbit hregs =>
    simp [hregs, hwrite.writesNext_iff, hwrite.resetsNext_iff, hbit, -BitVec.getLsbD_eq_getElem]
  | setMaxr v hwrite hregs | setOpa v hwrite hregs | setOpb v hwrite hregs =>
    simp [hregs, hwrite.writesNext_iff, hwrite.resetsNext_iff]
  | completes v c hwrite hresult hregs => simp [hregs, hwrite.writesNext_iff, hwrite.resetsNext_iff]
  | errs v e hwrite hresult hregs =>
    simp [hregs, hwrite.writesNext_iff, hwrite.resetsNext_iff, errorCode_ne_zero]
  | unchanged hreset hstatus _ _ _ hcmd hregs =>
    have hbit (v : Word) (hw : s.WritesNext .status v) : v.getLsbD 8 ≠ true :=
      Bool.eq_false_iff.1 (hstatus v hw)
    simp +contextual [hregs, hreset, hcmd, hbit, -BitVec.getLsbD_eq_getElem]

/-- Settles O43: the outcome flags move only by a reset or a command, and the results only by a
reset or a command that completes. -/
theorem outcomeChangesOnlyByCommandsAndResets :
    Obligations.OutcomeChangesOnlyByCommandsAndResets := by
  intro s t h
  cases regsEffect_of_step h with
  | reset hreset hregs => exact ⟨.inr (.inr hreset), .inr (.inr hreset)⟩
  | completes v c hwrite hresult hregs =>
    exact ⟨.inr (.inl ⟨v, hwrite⟩), .inr (.inl ⟨v, hwrite, by rw [hregs]⟩)⟩
  | errs v e hwrite hresult hregs =>
    exact ⟨.inr (.inl ⟨v, hwrite⟩), .inl (by simp [hregs])⟩
  | clearSticky _ _ _ hregs | setMaxr _ _ hregs | setOpa _ _ hregs | setOpb _ _ hregs
  | unchanged _ _ _ _ _ _ hregs => exact ⟨.inl (by simp [hregs]), .inl (by simp [hregs])⟩

/-- Settles O44: each operand register moves only by a reset or by its own write, which gives it the
word written. -/
theorem operandRegistersHoldTheLastWrite : Obligations.OperandRegistersHoldTheLastWrite := by
  intro s t h
  cases regsEffect_of_step h with
  | reset hreset hregs => simp [hreset, hreset.not_writesNext]
  | clearSticky v hwrite _ hregs | setMaxr v hwrite hregs | setOpa v hwrite hregs
  | setOpb v hwrite hregs | completes v _ hwrite _ hregs | errs v _ hwrite _ hregs =>
    simp [hregs, hwrite.writesNext_iff]
  | unchanged _ _ hmaxr hopa hopb hcmd hregs => simp [hregs, hmaxr, hopa, hopb, hcmd]

/-- Settles O35: both reads are constants of the map, and a served write to either offset only
records its answer. -/
theorem identificationIsConstant : Obligations.IdentificationIsConstant := by
  refine ⟨fun r => ⟨rfl, rfl⟩, by decide, by decide, by decide, by decide, by decide, by decide,
    by decide, ?_⟩
  rintro s rest v hin (hbus | hbus)
  · exact ⟨_, step_write (r := .id) hin hbus, rfl⟩
  · exact ⟨_, step_write (r := .param) hin hbus, rfl⟩

end Sys2Proof.Machine

/-! PROOF. The invariant of the registers: what each command delivers fits 24 bits and a sign and sets
only the flags it can set (R54, R57, R58, R62, R64), and every step keeps the invariant. -/

namespace Sys2Proof.Machine

/-! ### Widths of codes and values -/

/-- An unsigned result below `2^24` fits 24 bits. -/
theorem natAbs_sint32_zext32_lt {v : Nat} (h : v < 2 ^ 24) : (sint32 (zext32 v)).natAbs < 2 ^ 24 := by
  unfold sint32
  rw [toNat_zext32 (by omega)]
  split_ifs <;> omega

theorem natAbs_sint32_zero_lt : (sint32 0).natAbs < 2 ^ 24 := by decide

theorem toNat_zext32_lt {v : Nat} (h : v < 2 ^ 24) : (zext32 v).toNat < 2 ^ 24 := by
  rw [toNat_zext32] <;> omega

/-- A signed result with magnitude below `2^24` fits 24 bits and a sign. -/
theorem natAbs_sint32_word32_lt {sign : Bool} {m : Nat} (h : m < 2 ^ 24) :
    (sint32 (word32 (signed sign m))).natAbs < 2 ^ 24 := by
  have hsigned : (signed sign m).natAbs = m := by cases sign <;> simp [signed]
  rw [sint32_eq_toInt, toInt_word32 (by omega) (by omega), hsigned]
  exact h

theorem two_pow_le_two_pow_24 {n : Nat} (h : n ≤ 24) : 2 ^ n ≤ 2 ^ 24 :=
  Nat.pow_le_pow_right (by omega) h

theorem two_pow_eq_two_mul_pred {n : Nat} (h : 1 ≤ n) : 2 ^ n = 2 * 2 ^ (n - 1) := by
  rw [← pow_succ', Nat.sub_add_cancel h]

/-- A reconstructed value is below 1.0 in magnitude (R54). -/
theorem uqdMag_lt {n m : Nat} (sch : Scheme) (hn : 2 ≤ n) (hn' : n ≤ 24) (hm : m < 2 ^ (n - 1)) :
    uqdMag m n sch < 2 ^ 24 := by
  have hpow := two_pow_eq_two_mul_pred (n := n) (by omega)
  have hmax := two_pow_le_two_pow_24 hn'
  cases sch with
  | midrise =>
    calc (2 * m + 1) <<< (24 - n) = (2 * m + 1) * 2 ^ (24 - n) := Nat.shiftLeft_eq _ _
      _ < 2 ^ n * 2 ^ (24 - n) := Nat.mul_lt_mul_of_pos_right (by omega) (Nat.two_pow_pos _)
      _ = 2 ^ 24 := by rw [← pow_add, Nat.add_sub_cancel' hn']
  | midtread =>
    have hsucc : 2 ^ (n + 1) = 2 * 2 ^ n := pow_succ' 2 n
    show (m * 2 ^ 26 + (2 ^ n - 1)) / (2 ^ (n + 1) - 2) < 2 ^ 24
    rw [Nat.div_lt_iff_lt_mul (by omega)]
    omega

/-- The leading-zero count of a legal width is below the width (R58). -/
theorem lzcCount_lt (mag : Nat) {r : Nat} (hr : 2 ≤ r) : lzcCount mag r < r := by
  unfold lzcCount
  split_ifs <;> omega

/-- The scale of a normalized code is at most `E`, its mantissa has `rm` bits, and only a magnitude of
at most `rm - 1` bits takes the denormalized path (R62). -/
theorem flpNormalize_fits {rs rm a : Nat} (neg : Bool) (hrs : 1 ≤ rs) (hrm : 1 ≤ rm)
    (ha : a < 2 ^ (fullWidth rs rm - 1)) :
    let code := flpNormalize (codeword (fullWidth rs rm) neg a) rs rm
    code.1 ≤ maxScale rs ∧ code.2 < 2 ^ rm ∧ (code.1 = 0 → a < 2 ^ (rm - 1)) := by
  intro code
  by_cases hden : a < 2 ^ (rm - 1)
  · have hcode : code = _ := flpNormalize_denormalized neg hrs hrm hden
    rw [hcode]
    exact ⟨Nat.zero_le _, codeword_lt neg hrm hden, fun _ => hden⟩
  · have hpos : a ≠ 0 := by
      have := Nat.two_pow_pos (rm - 1)
      omega
    obtain ⟨hlow, hhigh⟩ := bitlen_spec hpos
    have hlen : rm - 1 < bitlen a :=
      (Nat.pow_lt_pow_iff_right (by omega : 1 < 2)).1 (by omega)
    have hscale : rm + (bitlen a + 1 - rm) - 1 = bitlen a := by omega
    obtain ⟨hle, hcode : code = _⟩ :=
      flpNormalize_normalized (scale := bitlen a + 1 - rm) neg hrs hrm (by omega) ha
        (by rwa [show rm + (bitlen a + 1 - rm) - 2 = bitlen a - 1 by omega]) (by rwa [hscale])
    rw [hcode]
    refine ⟨hle, codeword_lt neg hrm (Nat.mod_lt _ (Nat.two_pow_pos _)), fun hzero => ?_⟩
    have : bitlen a + 1 - rm = 0 := hzero
    omega

/-- A reconstructed magnitude fits the magnitude bits of the full resolution (R64). -/
theorem flpMagnitude_lt {rs rm scale : Nat} (mantissa : Nat) (hrs : 1 ≤ rs) (hrm : 1 ≤ rm)
    (hscale : scale ≤ maxScale rs) : flpMagnitude scale mantissa rm < 2 ^ (fullWidth rs rm - 1) := by
  have hmaxScale : maxScale rs = 2 ^ rs - 1 := rfl
  have hwidth : fullWidth rs rm = maxScale rs + rm := rfl
  have hE := two_le_two_pow hrs
  have hml : mantissa % 2 ^ (rm - 1) < 2 ^ (rm - 1) := Nat.mod_lt _ (Nat.two_pow_pos _)
  rw [flpMagnitude_eq scale mantissa hrm]
  split_ifs with hzero htwo
  · exact hml.trans_le (Nat.pow_le_pow_right (by omega) (by omega))
  all_goals
    have hle : 2 ^ (rm + scale - 1) ≤ 2 ^ (fullWidth rs rm - 1) :=
      Nat.pow_le_pow_right (by omega) (by omega)
    have htop : 2 ^ (rm + scale - 1) = 2 * 2 ^ (rm + scale - 2) :=
      two_pow_eq_two_mul_pred (n := rm + scale - 1) (by omega)
    have hsplit : 2 ^ (rm + scale - 2) = 2 ^ (rm - 1) * 2 ^ (scale - 1) := by
      rw [← pow_add]
      congr 1
      omega
    have hbits : (mantissa % 2 ^ (rm - 1) + 1) * 2 ^ (scale - 1) ≤ 2 ^ (rm + scale - 2) :=
      hsplit ▸ Nat.mul_le_mul_right _ hml
    rw [add_mul] at hbits
  · have hhalf := two_pow_eq_two_mul_pred (n := scale - 1) (by omega)
    have := Nat.two_pow_pos (scale - 2)
    rw [show scale - 1 - 1 = scale - 2 by omega] at hhalf
    omega
  · have := Nat.two_pow_pos (scale - 1)
    omega

/-! ### What each command delivers -/

/-- The results of a completion fit as `Regs.ResultsFit` asks of the registers. -/
def Completion.ResultsFit (c : Completion) : Prop :=
  (sint32 c.res0).natAbs < 2 ^ 24 ∧ (sint32 c.res1).natAbs < 2 ^ 24 ∧ c.res2.toNat < 2 ^ 24

theorem uqEncode_eq_error {n : Nat} {sch : Scheme} {value maxRange : Word} {e : CommandError}
    (h : uqEncode n sch value maxRange = .error e) : e = .invalidParameter := by
  unfold uqEncode at h
  split_ifs at h <;> cases h <;> rfl

theorem uqEncode_completes {n : Nat} {sch : Scheme} {value maxRange : Word} {c : Completion}
    (h : uqEncode n sch value maxRange = .ok c) : c.denorm = false ∧ c.ResultsFit := by
  by_cases herr : widthLegal n = false ∨ sint32 maxRange ≤ 0
  · rw [uqEncode_error sch herr] at h
    cases h
  obtain ⟨hlegal, hrange⟩ := not_or.1 herr
  obtain ⟨hn, hn'⟩ := (widthLegal_iff n).1 (by simpa using hlegal)
  rw [uqEncode_ok sch value (by simpa using hlegal) (not_le.1 hrange)] at h
  cases h
  have hmag := uqeMag_lt (magnitudeOf value) (sint32 maxRange) n sch
  have hcode := codeword_lt (signOf value) (by omega) hmag
  have hmax := two_pow_le_two_pow_24 hn'
  have hpow := two_pow_eq_two_mul_pred (n := n) (by omega)
  refine ⟨rfl, natAbs_sint32_zext32_lt (by omega), natAbs_sint32_word32_lt (by omega),
    toNat_zext32_lt (by omega)⟩

theorem uqDecode_eq_error {n : Nat} {sch : Scheme} {code : Word} {e : CommandError}
    (h : uqDecode n sch code = .error e) : e = .invalidParameter ∨ e = .domainViolation := by
  unfold uqDecode at h
  split_ifs at h <;> cases h <;> simp

theorem uqDecode_completes {n : Nat} {sch : Scheme} {code : Word} {c : Completion}
    (h : uqDecode n sch code = .ok c) : c.sat = false ∧ c.denorm = false ∧ c.ResultsFit := by
  cases hlegal : widthLegal n with
  | false =>
    rw [uqDecode_invalid sch code hlegal] at h
    cases h
  | true =>
    rcases le_or_gt (2 ^ n) code.toNat with hcode | hcode
    · rw [uqDecode_domain sch hlegal hcode] at h
      cases h
    · rw [uqDecode_ok sch hlegal hcode] at h
      cases h
      obtain ⟨hn, hn'⟩ := (widthLegal_iff n).1 hlegal
      have hmag : codeMag n code.toNat < 2 ^ (n - 1) :=
        codeMag_eq hn code.toNat ▸ Nat.mod_lt _ (Nat.two_pow_pos _)
      exact ⟨rfl, rfl, natAbs_sint32_word32_lt (uqdMag_lt sch hn hn' hmag),
        natAbs_sint32_zero_lt, Nat.two_pow_pos 24⟩

theorem leadingZeros_eq_error {r : Nat} {mag : Word} {e : CommandError}
    (h : leadingZeros r mag = .error e) : e = .invalidParameter ∨ e = .domainViolation := by
  unfold leadingZeros at h
  split_ifs at h <;> cases h <;> simp

theorem leadingZeros_completes {r : Nat} {mag : Word} {c : Completion}
    (h : leadingZeros r mag = .ok c) : c.sat = false ∧ c.denorm = false ∧ c.ResultsFit := by
  cases hlegal : widthLegal r with
  | false =>
    rw [leadingZeros_invalid mag hlegal] at h
    cases h
  | true =>
    rcases le_or_gt (2 ^ (r - 1)) mag.toNat with hmag | hmag
    · rw [leadingZeros_domain hlegal hmag] at h
      cases h
    · rw [leadingZeros_ok hlegal hmag] at h
      cases h
      obtain ⟨hr, hr'⟩ := (widthLegal_iff r).1 hlegal
      have hcount := lzcCount_lt mag.toNat hr
      exact ⟨rfl, rfl, natAbs_sint32_zext32_lt (by omega), natAbs_sint32_zero_lt, Nat.two_pow_pos 24⟩

theorem flpEncode_eq_error {rs rm : Nat} {value : Word} {e : CommandError}
    (h : flpEncode rs rm value = .error e) : e = .invalidParameter := by
  unfold flpEncode at h
  split_ifs at h
  cases h
  rfl

/-- A saturated magnitude code has too many bits for the denormalized path (R51, R62). -/
theorem maxMag_fullWidth_ge {rs rm : Nat} (hrs : 1 ≤ rs) (hrm : 1 ≤ rm) :
    2 ^ (rm - 1) ≤ maxMag (fullWidth rs rm) := by
  have hE := two_le_two_pow hrs
  have hwidth : fullWidth rs rm = 2 ^ rs - 1 + rm := rfl
  have hle : 2 ^ rm ≤ 2 ^ (fullWidth rs rm - 1) := Nat.pow_le_pow_right (by omega) (by omega)
  have hpow := two_pow_eq_two_mul_pred hrm
  have := Nat.two_pow_pos (rm - 1)
  unfold maxMag
  omega

theorem flpEncode_completes {rs rm : Nat} {value : Word} {c : Completion}
    (h : flpEncode rs rm value = .ok c) : (c.sat = true → c.denorm = false) ∧ c.ResultsFit := by
  cases hlegal : flpLegal rs rm with
  | false =>
    rw [flpEncode_invalid value hlegal] at h
    cases h
  | true =>
    obtain ⟨hrs, hrm, hwidth : 2 ^ rs - 1 + rm ≤ 24⟩ := (flpLegal_iff rs rm).1 hlegal
    have hmag := uqeMag_lt (magnitudeOf value) (2 ^ Config.fb) (fullWidth rs rm) .midtread
    have hcases := uqeMag_cases (magnitudeOf value) (2 ^ Config.fb) (fullWidth rs rm) .midtread
    rw [flpEncode_ok value hlegal rfl rfl] at h
    cases h
    generalize uqeMag (magnitudeOf value) (2 ^ Config.fb) (fullWidth rs rm) .midtread = mag at *
    obtain ⟨hscale, hmantissa, hden⟩ := flpNormalize_fits (signOf value) hrs hrm hmag
    have hcode := codeword_lt (signOf value) (n := fullWidth rs rm) (Nat.le_add_left_of_le hrm) hmag
    have hmaxScale : maxScale rs = 2 ^ rs - 1 := rfl
    have hmax : 2 ^ fullWidth rs rm ≤ 2 ^ 24 := two_pow_le_two_pow_24 hwidth
    have hmax' : 2 ^ rm ≤ 2 ^ 24 := two_pow_le_two_pow_24 (by omega)
    refine ⟨?_, natAbs_sint32_zext32_lt (by omega), natAbs_sint32_zext32_lt (by omega),
      toNat_zext32_lt (by omega)⟩
    intro hsat
    rcases hcases with ⟨-, rfl⟩ | ⟨-, -, rfl⟩
    · have htop := maxMag_fullWidth_ge hrs hrm
      exact beq_eq_false_iff_ne.2 fun hzero => not_lt.2 htop (hden hzero)
    · cases hsat

theorem flpDecode_eq_error {rs rm : Nat} {scale mantissa : Word} {e : CommandError}
    (h : flpDecode rs rm scale mantissa = .error e) : e = .invalidParameter ∨ e = .domainViolation := by
  unfold flpDecode at h
  split_ifs at h <;> cases h <;> simp

theorem flpDecode_completes {rs rm : Nat} {scale mantissa : Word} {c : Completion}
    (h : flpDecode rs rm scale mantissa = .ok c) : c.sat = false ∧ c.ResultsFit := by
  cases hlegal : flpLegal rs rm with
  | false =>
    rw [flpDecode_invalid scale mantissa hlegal] at h
    cases h
  | true =>
    by_cases hdom : 2 ^ rs - 1 < scale.toNat ∨ 2 ^ rm - 1 < mantissa.toNat
    · rw [flpDecode_domain hlegal hdom] at h
      cases h
    obtain ⟨hscale, hmantissa⟩ := not_or.1 hdom
    rw [flpDecode_ok hlegal (not_lt.1 hscale) (not_lt.1 hmantissa)
      (flpCode_eq scale.toNat mantissa.toNat rs rm)] at h
    cases h
    obtain ⟨hrs, hrm, hwidth : fullWidth rs rm ≤ 24⟩ := (flpLegal_iff rs rm).1 hlegal
    have hE := two_le_two_pow hrs
    have hfull : 2 ≤ fullWidth rs rm := by
      show 2 ≤ 2 ^ rs - 1 + rm
      omega
    have hmag := flpMagnitude_lt mantissa.toNat hrs hrm (not_lt.1 hscale)
    have hcode := codeword_lt (mantissa.toNat.testBit (rm - 1)) (by omega) hmag
    have hmax := two_pow_le_two_pow_24 hwidth
    rw [codeMag_codeword _ hfull hmag]
    exact ⟨rfl, natAbs_sint32_word32_lt (uqdMag_lt .midtread hfull hwidth hmag),
      natAbs_sint32_zext32_lt (by omega), Nat.two_pow_pos 24⟩

/-- The error of a command word names its cause: an illegal word, a command that refuses its
configuration, or one that refuses an operand, which no encode command does (R70). -/
theorem commandResult_error {v maxr opa opb : Word} {e : CommandError}
    (h : commandResult v maxr opa opb = .error e) :
    (e = .illegalCommand ∧ selectsCommand v = false) ∨
      (e = .invalidParameter ∧ selectsCommand v = true) ∨
      (e = .domainViolation ∧ selectsCommand v = true ∧ selectsEncode v = false) := by
  cases hd : decode v with
  | error e' =>
    obtain rfl := decode_error hd
    rw [commandResult_of_decode_error hd] at h
    cases h
    exact .inl ⟨rfl, by simp [selectsCommand, hd]⟩
  | ok i =>
    rw [commandResult_of_decode_ok hd] at h
    have hcmd : selectsCommand v = true := by simp [selectsCommand, hd]
    right
    cases i with
    | uqEnc nb sch => exact .inl ⟨uqEncode_eq_error h, hcmd⟩
    | flpEnc rs rm => exact .inl ⟨flpEncode_eq_error h, hcmd⟩
    | uqDec nb sch =>
      have hdec : selectsEncode v = false := by simp [selectsEncode, hd]
      exact (uqDecode_eq_error h).imp (⟨·, hcmd⟩) (⟨·, hcmd, hdec⟩)
    | lzc nb =>
      have hdec : selectsEncode v = false := by simp [selectsEncode, hd]
      exact (leadingZeros_eq_error h).imp (⟨·, hcmd⟩) (⟨·, hcmd, hdec⟩)
    | flpDec rs rm =>
      have hdec : selectsEncode v = false := by simp [selectsEncode, hd]
      exact (flpDecode_eq_error h).imp (⟨·, hcmd⟩) (⟨·, hcmd, hdec⟩)

/-- A command word that completes selects a command, sets only the flags that command can set, and
its results fit (R16, R24). -/
theorem commandResult_ok {v maxr opa opb : Word} {c : Completion}
    (h : commandResult v maxr opa opb = .ok c) :
    selectsCommand v = true ∧ (c.sat = true → selectsEncode v = true ∧ c.denorm = false) ∧
      (c.denorm = true → selectsFloating v = true) ∧ c.ResultsFit := by
  cases hd : decode v with
  | error e =>
    rw [commandResult_of_decode_error hd] at h
    cases h
  | ok i =>
    rw [commandResult_of_decode_ok hd] at h
    refine ⟨by simp [selectsCommand, hd], ?_⟩
    cases i with
    | uqEnc nb sch =>
      obtain ⟨hdenorm, hfit⟩ := uqEncode_completes h
      simp [selectsEncode, hd, hdenorm, hfit]
    | uqDec nb sch =>
      obtain ⟨hsat, hdenorm, hfit⟩ := uqDecode_completes h
      simp [hsat, hdenorm, hfit]
    | lzc nb =>
      obtain ⟨hsat, hdenorm, hfit⟩ := leadingZeros_completes h
      simp [hsat, hdenorm, hfit]
    | flpEnc rs rm =>
      obtain ⟨hflags, hfit⟩ := flpEncode_completes h
      exact ⟨fun hsat => ⟨by simp [selectsEncode, hd], hflags hsat⟩,
        fun _ => by simp [selectsFloating, hd], hfit⟩
    | flpDec rs rm =>
      obtain ⟨hsat, hfit⟩ := flpDecode_completes h
      simp [selectsFloating, hd, hsat, hfit]

/-! ### Every step keeps the invariant -/

/-- The registers meet the invariant of R16 and R24. -/
def Regs.Consistent (r : Regs) : Prop := r.StatusFits ∧ r.ResultsFit

theorem State.consistent_iff (s : State) : s.Consistent ↔ s.regs.Consistent := Iff.rfl

/-- The reset registers meet the invariant (R83). -/
theorem Regs.reset_consistent : Regs.reset.Consistent := by
  unfold Regs.Consistent Regs.StatusFits Regs.ResultsFit
  decide

/-- The status of a command that completes tells its outcome (R72). -/
theorem Regs.statusFits_of_ok {r : Regs} {maxr opa opb : Word} {c : Completion}
    (h : commandResult r.cmd maxr opa opb = .ok c) (herr : r.err = 0) (hsat : r.sat = c.sat)
    (hdenorm : r.denorm = c.denorm) : r.StatusFits := by
  obtain ⟨hcmd, hencode, hfloating, -⟩ := commandResult_ok h
  unfold Regs.StatusFits
  simpa [herr, hsat, hdenorm, hcmd] using ⟨hencode, hfloating⟩

/-- The status of a command that ends in an error tells its cause (R71). -/
theorem Regs.statusFits_of_error {r : Regs} {maxr opa opb : Word} {e : CommandError}
    (h : commandResult r.cmd maxr opa opb = .error e) (herr : r.err = errorCode e)
    (hsat : r.sat = false) (hdenorm : r.denorm = false) : r.StatusFits := by
  unfold Regs.StatusFits
  rcases commandResult_error h with ⟨rfl, hcmd⟩ | ⟨rfl, hcmd⟩ | ⟨rfl, hcmd, hencode⟩
  · simp [herr, hsat, hdenorm, hcmd, errorCode]
  · simp [herr, hsat, hdenorm, hcmd, errorCode]
  · simp [herr, hsat, hdenorm, hcmd, hencode, errorCode]

/-- Everything a step can do to the registers keeps the invariant. -/
theorem RegsEffect.keeps_consistent {s : State} {r : Regs} (h : RegsEffect s r)
    (hs : s.regs.Consistent) : r.Consistent := by
  obtain ⟨hstatus, hresults⟩ := hs
  cases h with
  | reset _ hregs => exact hregs ▸ Regs.reset_consistent
  | clearSticky _ _ _ hregs | setMaxr _ _ hregs | setOpa _ _ hregs | setOpb _ _ hregs
  | unchanged _ _ _ _ _ _ hregs =>
    subst hregs
    exact ⟨hstatus, hresults⟩
  | completes v c _ hresult hregs =>
    obtain ⟨-, -, -, hfit⟩ := commandResult_ok hresult
    subst hregs
    exact ⟨Regs.statusFits_of_ok hresult rfl rfl rfl, hfit⟩
  | errs v e _ hresult hregs =>
    subst hregs
    exact ⟨Regs.statusFits_of_error hresult rfl rfl rfl, hresults⟩

/-- A register write does not move the window (R26). -/
theorem writeRegister_baseBlock {n : Option RegName} {v : Word} {s t : State}
    (h : writeRegister n v s = .next t) : t.baseBlock = s.baseBlock := by
  rcases writeRegister_cases n v s with ⟨-, -, hout⟩ | ⟨-, -, hout⟩ | ⟨-, hout⟩ | ⟨-, hout⟩ |
    ⟨-, hout⟩ | ⟨-, hout⟩ | ⟨-, -, -, -, -, -, hout⟩ <;> rw [hout] at h
  · cases h; rfl
  · cases h; rfl
  · cases h; rfl
  · cases h; rfl
  · cases h; rfl
  · rw [execute_eq_finish] at h
    cases h
    obtain ⟨-, hbase, -⟩ :=
      (s.setCmd v).finish_frame (commandResult v s.regs.maxr s.regs.opa s.regs.opb)
    exact hbase
  · cases h; rfl

/-- A step does not move the window (R26). -/
theorem step_baseBlock {s t : State} (h : step s = .next t) : t.baseBlock = s.baseBlock := by
  rcases step_cases h with ⟨-, rfl⟩ | ⟨rest, lvl, -, rfl⟩ | ⟨_, _, -, -, -, rfl⟩ |
    ⟨_, _, -, -, -, -, -, rfl⟩ | ⟨_, _, _, -, -, -, -, -, hout⟩
  · rfl
  · cases lvl with
    | true => rfl
    | false =>
      rw [State.driveReset_false]
      split_ifs <;> rfl
  · rfl
  · rfl
  · simpa using writeRegister_baseBlock hout

/-- Settles O47: every effect of a step on the registers keeps the invariant, and no step moves the
window. -/
theorem stepKeepsConsistency : Obligations.StepKeepsConsistency := fun s _ hs h =>
  ⟨(regsEffect_of_step h).keeps_consistent (s.consistent_iff.1 hs), step_baseBlock h⟩

end Sys2Proof.Machine

/-! PROOF. The register window of 20_memory.md: byte lanes (R27), an access at an offset of the window
(R26, R28 to R30), a command executed twice (R31), and runs of orderly accesses (R32, R33). -/

namespace Sys2Proof.Machine

/-! ### Byte lanes and `STATUS` (R27, R29) -/

/-- Four byte lanes in address order make the register word again (R27). -/
theorem wordOfBytes_byteLane (w : Word) :
    wordOfBytes (byteLane w 0) (byteLane w 1) (byteLane w 2) (byteLane w 3) = w := by
  unfold wordOfBytes byteLane
  rw [BitVec.extractLsb'_append_extractLsb'_eq_extractLsb' (by decide),
    BitVec.extractLsb'_append_extractLsb'_eq_extractLsb' (by decide),
    BitVec.extractLsb'_append_extractLsb'_eq_extractLsb' (by decide)]
  exact BitVec.extractLsb'_eq_self

/-- Settles O36: a lane is a slice of 8 bits, and adjacent slices put together are one slice. -/
theorem byteLanesAreLittleEndian : Obligations.ByteLanesAreLittleEndian := by
  refine ⟨?_, wordOfBytes_byteLane, fun _ _ _ => rfl⟩
  intro w i j hi _
  rw [byteLane, BitVec.getLsbD_extractLsb', decide_eq_true hi, Bool.true_and]

/-- The number of two bit strings side by side. -/
theorem toNat_append_eq_add {m n : Nat} (x : BitVec m) (y : BitVec n) :
    (x ++ y).toNat = 2 ^ n * x.toNat + y.toNat := by
  rw [BitVec.toNat_append, Nat.shiftLeft_eq, Nat.mul_comm, Nat.two_pow_add_eq_or_of_lt y.isLt]

/-- `STATUS` as a sum of its fields: `ERR` from bit 0, `SAT` at bit 4, `DENORM` at bit 5 and
`STICKY` at bit 8 (R29). -/
theorem statusWord_eq (r : Regs) :
    statusWord r = BitVec.ofNat 32
      (r.err.toNat + 16 * r.sat.toNat + 32 * r.denorm.toNat + 256 * r.sticky.toNat) := by
  apply BitVec.eq_of_toNat_eq
  simp only [statusWord, flagBit, BitVec.toNat_setWidth, BitVec.toNat_ofNat, toNat_append_eq_add,
    BitVec.toNat_ofBool]
  congr 1
  omega

/-! ### An access and the window (R26, R28) -/

/-- `BASE` is 64 times its block (R26). -/
theorem State.base_eq (s : State) : s.base = 64 * s.baseBlock := rfl

/-- The window base depends on its block alone (R26). -/
theorem base_congr {s t : State} (h : t.baseBlock = s.baseBlock) : t.base = s.base := by
  rw [State.base_eq, h, State.base_eq]

/-- The address of a register depends on the block of the window alone (R13, R26). -/
theorem address_congr {s t : State} (h : t.baseBlock = s.baseBlock) (r : RegName) :
    t.address r = s.address r := by
  rw [State.address, base_congr h, State.address]

/-- A pending input is the one that the step answers (R32). -/
theorem step_cons {s : State} {e : Event} {rest : List Event} (h : s.bus = e :: rest) :
    step s = answer e (s.withBus rest) := by
  rw [step, h]

/-- An access whose first byte is not in the window stops the model (R26, log entry 5). -/
theorem step_outside {s : State} {addr size : Nat} {v : Word} {rest : List Event}
    (hin : s.inReset = false)
    (hbus : s.bus = .read addr size :: rest ∨ s.bus = .write addr size v :: rest)
    (haddr : addr < s.base ∨ s.base + 64 ≤ addr) : step s = .fault (.outsideWindow addr) := by
  have hroute : route (s.withBus rest) addr size = .outside := by
    have hbase : (s.withBus rest).base = s.base := rfl
    rcases route_cases (s.withBus rest) addr size with
      ⟨hin', -⟩ | ⟨-, -, hr⟩ | ⟨-, hlow, hhigh, -⟩ | ⟨-, hlow, hhigh, -⟩
    · simp [hin] at hin'
    · exact hr
    · omega
    · omega
  rcases hbus with hbus | hbus <;> rw [step_cons hbus]
  · simp only [answer, hostRead, hroute]
  · simp only [answer, hostWrite, hroute]

/-- An access in the window of a wrong size or alignment gets the bus error response (R28, R79). -/
theorem step_refused {s : State} {addr size : Nat} {v : Word} {rest : List Event}
    (hin : s.inReset = false)
    (hbus : s.bus = .read addr size :: rest ∨ s.bus = .write addr size v :: rest)
    (hlow : s.base ≤ addr) (hhigh : addr < s.base + 64)
    (hwrong : size ≠ 4 ∨ (addr - s.base) % 4 ≠ 0) : step s = .next (s.withBus rest).busError := by
  have hroute : route (s.withBus rest) addr size = .refused := by
    have hbase : (s.withBus rest).base = s.base := rfl
    rcases route_cases (s.withBus rest) addr size with
      ⟨hin', -⟩ | ⟨-, hout, -⟩ | ⟨-, -, -, -, hr⟩ | ⟨-, -, -, hsize, halign, -⟩
    · simp [hin] at hin'
    · omega
    · exact hr
    · omega
  rcases hbus with hbus | hbus <;> rw [step_cons hbus]
  · simp only [answer, hostRead, hroute]
  · simp only [answer, hostWrite, hroute]

/-- Settles O41: with no byte in the window the first one is not in it. -/
theorem outsideAccessStops : Obligations.OutsideAccessStops := by
  intro s rest addr size v hin hbus haddr
  have hbase := s.base_eq
  exact step_outside hin hbus (by omega)

/-- Settles O51: the first byte is in the window in the first case, where 4 aligned bytes would not
run past the end, and below it in the second. -/
theorem straddlingAccessIsDecidedByItsFirstByte :
    Obligations.StraddlingAccessIsDecidedByItsFirstByte := by
  intro s rest addr size v hin hbus
  have hbase := s.base_eq
  constructor
  · intro hlow hhigh hend
    exact ⟨_, step_refused hin hbus (by omega) (by omega) (by omega), rfl, rfl, rfl, rfl⟩
  · intro hlow _
    exact step_outside hin hbus (by omega)

/-! ### A served access at an offset (R29, R30) -/

/-- The step that takes an aligned read of 4 bytes in the window answers with the register there
(R29). -/
theorem step_read_at {s : State} {off : Nat} {rest : List Event} (hin : s.inReset = false)
    (hoff : off < 64) (halign : off % 4 = 0)
    (hbus : s.bus = .read (64 * s.baseBlock + off) 4 :: rest) :
    step s = .next ((s.withBus rest).reply (.data (s.regs.read (regAt off)))) := by
  have hroute := route_base_add (s.withBus rest) off hin hoff halign
  rw [State.withBus_baseBlock] at hroute
  rw [step_cons hbus]
  simp only [answer, hostRead, hroute, State.withBus_regs]

/-- The step that takes an aligned write of 4 bytes in the window is the write of the register there
(R30). -/
theorem step_write_at {s : State} {off : Nat} {v : Word} {rest : List Event}
    (hin : s.inReset = false) (hoff : off < 64) (halign : off % 4 = 0)
    (hbus : s.bus = .write (64 * s.baseBlock + off) 4 v :: rest) :
    step s = writeRegister (regAt off) v ((s.withBus rest).reply .written) := by
  have hroute := route_base_add (s.withBus rest) off hin hoff halign
  rw [State.withBus_baseBlock] at hroute
  rw [step_cons hbus]
  simp only [answer, hostWrite, hroute]

/-- An offset is that of a register or reserved, and a reserved one is no register's (R13, R23). -/
theorem regAt_cases (off : Nat) :
    (∃ n : RegName, off = n.offset) ∨
    (regAt off = none ∧ off ≠ 0x00 ∧ off ≠ 0x04 ∧ off ≠ 0x08 ∧ off ≠ 0x0C ∧ off ≠ 0x10 ∧
      off ≠ 0x14 ∧ off ≠ 0x18 ∧ off ≠ 0x1C ∧ off ≠ 0x20 ∧ off ≠ 0x24 ∧ off ≠ 0x28) := by
  cases hreg : regAt off with
  | some n => exact .inl ⟨n, (offset_of_regAt hreg).symm⟩
  | none =>
    have hne (n : RegName) : off ≠ n.offset := by
      rintro rfl
      simp at hreg
    exact .inr ⟨rfl, hne .id, hne .param, hne .ctrl, hne .status, hne .maxr, hne .opa, hne .opb,
      hne .cmd, hne .res0, hne .res1, hne .res2⟩

/-- Settles O33: the read answers with the register at the offset, named or reserved. -/
theorem readReturnsTheRegister : Obligations.ReadReturnsTheRegister := by
  intro s rest off hin hoff halign hbus r w
  have hword : s.regs.read (regAt off) = w := by
    rcases regAt_cases off with ⟨n, rfl⟩ | ⟨hnone, hne⟩
    · rw [regAt_offset]
      cases n with
      | status => exact statusWord_eq s.regs
      | _ => rfl
    · simp only [hnone, Regs.read, w, hne, if_false]
  rw [step_read_at hin hoff halign hbus, hword]
  rfl

/-- Settles O34: the write goes to the register at the offset, named or reserved. -/
theorem writeDoesWhatTheMapSays : Obligations.WriteDoesWhatTheMapSays := by
  intro s rest off v hin hoff halign hbus r s'
  rw [step_write_at hin hoff halign hbus]
  rcases regAt_cases off with ⟨n, rfl⟩ | ⟨hnone, hne⟩
  · rw [regAt_offset]
    cases n <;> rfl
  · simp only [hnone, writeRegister, hne, if_false]
    rfl

/-! ### Commands (R31, R41) -/

/-- A decoded command carries bit fields of its word, and each fits its width (R37). -/
theorem wellFormed_of_decode {v : Word} {i : Instr} (h : decode v = .ok i) :
    i.wellFormed = true := by
  have hnb : nbFits (nbField v) = true := decide_eq_true (Nat.mod_lt _ (by decide))
  have hrs : rsFits (rsField v) = true := decide_eq_true (Nat.mod_lt _ (by decide))
  have hrm : rmFits (rmField v) = true := decide_eq_true (Nat.mod_lt _ (by decide))
  unfold decode at h
  split_ifs at h <;> cases h <;> simp [Instr.wellFormed, hnb, hrs, hrm]

/-- A word that decodes runs the command it selects (R41). -/
theorem execute_of_decode_ok {v : Word} {i : Instr} (h : decode v = .ok i) (s : State) :
    execute v s = exec i s := by
  rw [execute, h]

/-- Settles O7: the step is the write of `CMD`, which executes the word. -/
theorem stepRunsTheDecodedCommand : Obligations.StepRunsTheDecodedCommand := by
  intro s v i rest hin hbus hdecode
  have hstep := step_write_at (off := 0x1C) hin (by decide) (by decide) hbus
  exact ⟨wellFormed_of_decode hdecode, hstep.trans (execute_of_decode_ok hdecode _)⟩

/-- The same delivery ends a command a second time as it did the first (R71, R72). -/
theorem State.finish_finish (s : State) (r : Except CommandError Completion) :
    (s.finish r).finish r = s.finish r := by
  cases r <;> rfl

/-- The registers in which a command ends are read from the registers alone (R12). -/
theorem State.finish_regs_congr {s s' : State} (h : s.regs = s'.regs)
    (r : Except CommandError Completion) : (s.finish r).regs = (s'.finish r).regs := by
  cases r <;> simp [h]

/-- Settles O20: a command leaves its operands, so the second execution delivers what the first
did. -/
theorem repeatedCommandChangesNothingMore : Obligations.RepeatedCommandChangesNothingMore := by
  intro v s
  refine ⟨_, execute_eq_finish v s, ?_⟩
  obtain ⟨-, -, -, -, hmaxr, hopa, hopb, -⟩ :=
    s.finish_frame (commandResult v s.regs.maxr s.regs.opa s.regs.opb)
  rw [execute_eq_finish, hmaxr, hopa, hopb, State.finish_finish]

/-! ### Orderly accesses (R28) -/

/-- An orderly access is an aligned read or write of 4 bytes at an offset of the window. -/
theorem Event.orderly_cases {s : State} {e : Event} (h : e.orderly s.base = true) :
    ∃ off, off < 64 ∧ off % 4 = 0 ∧ (e = .read (64 * s.baseBlock + off) 4 ∨
      ∃ v, e = .write (64 * s.baseBlock + off) 4 v) := by
  have hbase := s.base_eq
  cases e with
  | resetInput lvl => simp [Event.orderly] at h
  | read addr size =>
    simp only [Event.orderly, Bool.and_eq_true, decide_eq_true_eq] at h
    obtain ⟨⟨⟨rfl, halign⟩, hlow⟩, hhigh⟩ := h
    obtain ⟨off, rfl⟩ := Nat.exists_eq_add_of_le hlow
    exact ⟨off, by omega, by omega, .inl rfl⟩
  | write addr size v =>
    simp only [Event.orderly, Bool.and_eq_true, decide_eq_true_eq] at h
    obtain ⟨⟨⟨rfl, halign⟩, hlow⟩, hhigh⟩ := h
    obtain ⟨off, rfl⟩ := Nat.exists_eq_add_of_le hlow
    exact ⟨off, by omega, by omega, .inr ⟨v, rfl⟩⟩

/-- An orderly read is an aligned read of 4 bytes at its offset of the window (R31). -/
theorem Event.orderlyRead_cases {s : State} {e : Event} (h : e.orderlyRead s.base = true) :
    e.readOffset s.base < 64 ∧ e.readOffset s.base % 4 = 0 ∧
      e = .read (64 * s.baseBlock + e.readOffset s.base) 4 := by
  cases e with
  | resetInput _ => simp [Event.orderlyRead] at h
  | write _ _ _ => simp [Event.orderlyRead] at h
  | read addr size =>
    have horderly : (Event.read addr size).orderly s.base = true := h
    obtain ⟨off, hoff, halign, he | ⟨_, he⟩⟩ := Event.orderly_cases horderly <;> cases he
    have hread : (Event.read (64 * s.baseBlock + off) 4).readOffset s.base = off :=
      Nat.add_sub_cancel_left (s.base) off
    rw [hread]
    exact ⟨hoff, halign, rfl⟩

/-- The access at a register's own address is orderly (R13). -/
theorem stW_orderly (s : State) (r : RegName) (v : Word) : (stW s r v).orderly s.base = true := by
  have hbase := s.base_eq
  have hoff : r.offset % 4 = 0 ∧ r.offset < 64 := by cases r <;> decide
  simp only [stW, State.address, Event.orderly, Bool.and_eq_true, decide_eq_true_eq,
    true_and]
  omega

/-- A register write goes on and changes nothing but the registers (R30, R41). -/
theorem writeRegister_next (n : Option RegName) (v : Word) (s : State) :
    ∃ t, writeRegister n v s = .next t ∧ t.inReset = s.inReset ∧ t.bus = s.bus ∧
      t.replies = s.replies := by
  rcases writeRegister_cases n v s with ⟨-, -, hout⟩ | ⟨-, -, hout⟩ | ⟨-, hout⟩ | ⟨-, hout⟩ |
    ⟨-, hout⟩ | ⟨-, hout⟩ | ⟨-, -, -, -, -, -, hout⟩ <;> rw [hout]
  iterate 5 exact ⟨_, rfl, rfl, rfl, rfl⟩
  · obtain ⟨r, hr⟩ := execute_finishes v (s.setCmd v)
    obtain ⟨hin, -, hbus, hreplies, -⟩ := (s.setCmd v).finish_frame r
    exact ⟨_, hr, hin, hbus, hreplies⟩
  · exact ⟨_, rfl, rfl, rfl, rfl⟩

/-- The step that takes an orderly access goes on and gives it one answer, no bus error (R28, R89). -/
theorem step_orderly {s : State} {e : Event} {rest : List Event} (hin : s.inReset = false)
    (he : e.orderly s.base = true) (hbus : s.bus = e :: rest) :
    ∃ t a, step s = .next t ∧ t.inReset = false ∧ t.bus = rest ∧ t.replies = s.replies ++ [a] ∧
      a ≠ .busError := by
  obtain ⟨off, hoff, halign, rfl | ⟨v, rfl⟩⟩ := Event.orderly_cases he
  · exact ⟨_, _, step_read_at hin hoff halign hbus, hin, rfl, rfl, by simp⟩
  · obtain ⟨t, hout, hin', hbus', hreplies⟩ :=
      writeRegister_next (regAt off) v ((s.withBus rest).reply .written)
    exact ⟨t, .written, (step_write_at hin hoff halign hbus).trans hout, hin'.trans hin, hbus',
      hreplies, by simp⟩

/-! ### Reads after a command (R33, R88) -/

/-- A run over orderly reads answers each with the register at its offset and changes nothing else
(R29, R31). -/
theorem run_orderlyReads (reads : List Event) : ∀ s : State, s.inReset = false →
    (∀ e ∈ reads, e.orderlyRead s.base = true) → s.bus = reads →
    Host.Core.run Sys2Proof.core reads.length s = .next { s with
      bus := []
      replies := s.replies ++
        reads.map fun e => .data (s.regs.read (regAt (e.readOffset s.base))) } := by
  induction reads with
  | nil =>
    intro s _ _ hbus
    rw [List.length_nil, run_zero, List.map_nil, List.append_nil, ← hbus]
  | cons e rest ih =>
    intro s hin hreads hbus
    obtain ⟨hoff, halign, he⟩ := Event.orderlyRead_cases (hreads e List.mem_cons_self)
    have hstep := step_read_at hin hoff halign (hbus.trans (congrArg (· :: rest) he))
    have hrest := ih ((s.withBus rest).reply (.data (s.regs.read (regAt (e.readOffset s.base)))))
      hin (fun e' he' => hreads e' (List.mem_cons_of_mem e he')) rfl
    refine (run_succ hstep rest.length).trans (hrest.trans ?_)
    rw [State.reply_replies, List.append_assoc]
    rfl

/-- The step that takes a write of `CMD` gives the registers in which the command ends, whatever
stands on the bus (R30, R41). -/
theorem step_command {s : State} {v : Word} {rest : List Event} (hin : s.inReset = false)
    (hbus : s.bus = stW s .cmd v :: rest) :
    ∃ t u, execute v (s.setCmd v) = .next u ∧ step s = .next t ∧ t.regs = u.regs ∧
      t.inReset = false ∧ t.base = s.base ∧ t.bus = rest ∧ t.replies = s.replies ++ [.written] := by
  have hsame : (s.setCmd v).regs = (((s.withBus rest).reply .written).setCmd v).regs := rfl
  obtain ⟨r, hu, ht⟩ := execute_finishes_alike v hsame
  obtain ⟨hin', hblock, hbus', hreplies, -⟩ :=
    (((s.withBus rest).reply .written).setCmd v).finish_frame r
  exact ⟨_, _, hu, (step_write hin hbus).trans ht, (State.finish_regs_congr hsame r).symm,
    hin'.trans hin, base_congr hblock, hbus', hreplies⟩

/-- Settles O49: the command ends in one step, and the reads that follow leave its registers. -/
theorem readsAfterACommandSeeItsOutcome : Obligations.ReadsAfterACommandSeeItsOutcome := by
  intro s v reads hin hreads hbus
  obtain ⟨t, u, hu, hstep, hregs, hin', hbase, hbus', hreplies⟩ := step_command hin hbus
  have hrun := run_orderlyReads reads t hin' (hbase.symm ▸ hreads) hbus'
  refine ⟨_, u, hu, (run_succ hstep reads.length).trans hrun, hregs, rfl, ?_⟩
  rw [← hreplies, ← hregs, ← hbase]

/-! ### A read of the latest write (R32) -/

section
variable {s t : State} {r : RegName}

/-- A step that neither writes an operand register nor resets leaves what it reads as (R18 to R21). -/
theorem read_operand_of_not_writesNext (h : step s = .next t)
    (hr : r = .maxr ∨ r = .opa ∨ r = .opb ∨ r = .cmd) (hwrite : ∀ v, ¬ s.WritesNext r v)
    (hreset : ¬ s.ResetsNext) : t.regs.read (some r) = s.regs.read (some r) := by
  obtain ⟨-, -, -, -, hmaxr, hopa, hopb, hcmd⟩ := operandRegistersHoldTheLastWrite s t h
  rcases hr with rfl | rfl | rfl | rfl
  · exact hmaxr.resolve_right (by simp [hwrite, hreset])
  · exact hopa.resolve_right (by simp [hwrite, hreset])
  · exact hopb.resolve_right (by simp [hwrite, hreset])
  · exact hcmd.resolve_right (by simp [hwrite, hreset])

/-- After a step that writes an operand register, it reads as the word written (R18 to R21). -/
theorem read_operand_of_writesNext {v : Word} (h : step s = .next t)
    (hr : r = .maxr ∨ r = .opa ∨ r = .opb ∨ r = .cmd) (hwrite : s.WritesNext r v) :
    t.regs.read (some r) = v := by
  obtain ⟨hmaxr, hopa, hopb, hcmd, -⟩ := operandRegistersHoldTheLastWrite s t h
  rcases hr with rfl | rfl | rfl | rfl
  · exact hmaxr v hwrite
  · exact hopa v hwrite
  · exact hopb v hwrite
  · exact hcmd v hwrite

variable {e : Event} {rest : List Event}

/-- An access that leaves a register is no write of it. -/
theorem not_writesNext_of_leaves (hbus : s.bus = e :: rest) (he : e.leaves s r = true) (v : Word) :
    ¬ s.WritesNext r v := by
  rintro ⟨-, rest', hbus'⟩
  obtain ⟨rfl, -⟩ := List.cons.inj (hbus.symm.trans hbus')
  simp [Event.leaves] at he

/-- An access that leaves a register is no soft reset, and no other access resets (R15, R84). -/
theorem not_resetsNext_of_leaves (hbus : s.bus = e :: rest) (he : e.leaves s r = true) :
    ¬ s.ResetsNext := by
  rintro (⟨-, v, rest', hbus', hbit⟩ | ⟨-, rest', hbus'⟩) <;>
    obtain ⟨rfl, -⟩ := List.cons.inj (hbus.symm.trans hbus')
  · simp [Event.leaves, hbit, -BitVec.getLsbD_eq_getElem] at he
  · simp [Event.leaves] at he

/-- Which accesses leave a register depends on the window base alone. -/
theorem leaves_congr (h : t.baseBlock = s.baseBlock) (e : Event) (r : RegName) :
    e.leaves t r = e.leaves s r := by
  unfold Event.leaves
  rw [base_congr h, address_congr h, address_congr h]

end

/-- A run over accesses that leave an operand register answers each and leaves what the register
reads as; the run goes on from there (R32). -/
theorem run_leaves {r : RegName} (hr : r = .maxr ∨ r = .opa ∨ r = .opb ∨ r = .cmd)
    (between tail : List Event) : ∀ s : State, s.inReset = false →
    (∀ e ∈ between, e.leaves s r = true) → s.bus = between ++ tail →
    ∃ t : State, (∀ k, Host.Core.run Sys2Proof.core (between.length + k) s =
        Host.Core.run Sys2Proof.core k t) ∧
      t.inReset = false ∧ t.baseBlock = s.baseBlock ∧ t.bus = tail ∧
      t.replies.length = s.replies.length + between.length ∧
      t.regs.read (some r) = s.regs.read (some r) := by
  induction between with
  | nil =>
    intro s hin _ hbus
    exact ⟨s, fun k => by rw [List.length_nil, Nat.zero_add], hin, rfl, hbus, rfl, rfl⟩
  | cons e rest ih =>
    intro s hin hleaves hbus
    have he : e.leaves s r = true := hleaves e List.mem_cons_self
    have horderly : e.orderly s.base = true := (Bool.and_eq_true_iff.1 he).1
    obtain ⟨u, a, hstep, hin', hbus', hreplies, -⟩ := step_orderly hin horderly hbus
    have hblock : u.baseBlock = s.baseBlock := step_baseBlock hstep
    have hread := read_operand_of_not_writesNext hstep hr (not_writesNext_of_leaves hbus he)
      (not_resetsNext_of_leaves hbus he)
    obtain ⟨t, hrun, htin, htblock, htbus, htreplies, htread⟩ := ih u hin'
      (fun e' he' => (leaves_congr hblock e' r).trans (hleaves e' (List.mem_cons_of_mem e he')))
      hbus'
    refine ⟨t, fun k => ?_, htin, htblock.trans hblock, htbus, ?_, htread.trans hread⟩
    · rw [List.length_cons, Nat.add_right_comm, run_succ hstep, hrun]
    · simp only [htreplies, hreplies, List.length_append, List.length_cons, List.length_nil]
      omega

/-- Settles O48: the write gives the register its word, the accesses between leave it, and the read
answers with it. -/
theorem readReturnsTheLatestWrite : Obligations.ReadReturnsTheLatestWrite := by
  intro s r v between hin hr hleaves hbus
  obtain ⟨u, a, hstep, hin', hbus', hreplies, -⟩ := step_orderly hin (stW_orderly s r v) hbus
  have hblock : u.baseBlock = s.baseBlock := step_baseBlock hstep
  have hword : u.regs.read (some r) = v := read_operand_of_writesNext hstep hr ⟨hin, _, hbus⟩
  obtain ⟨t, hrun, htin, htblock, htbus, htreplies, htread⟩ :=
    run_leaves hr between [ldW s r] u hin'
      (fun e he => (leaves_congr hblock e r).trans (hleaves e he)) hbus'
  have haddr : t.address r = s.address r := address_congr (htblock.trans hblock) r
  have hlast : step t = .next ((t.withBus []).reply (.data v)) := by
    rw [← hword, ← htread]
    exact step_read htin (htbus.trans (by rw [ldW, haddr]))
  refine ⟨(t.withBus []).reply (.data v), ?_, rfl, ?_, by simp⟩
  · rw [run_succ hstep, hrun 1, run_succ hlast, run_zero]
  · simp only [State.reply_replies, State.withBus_replies, List.length_append, htreplies, hreplies,
      List.length_singleton]
    omega

end Sys2Proof.Machine

/-! PROOF. The encoding of 30_encoding.md: the command word as fields side by side (R37), the rows of
the table as conditions on those fields (R40), the decoder as a partial inverse of the encoder (R41,
R42, R46), and the operands a command reads (R44). -/

namespace Sys2Proof

/-! ### Fields of a word (R37) -/

/-- A word is its five fields and the four groups of reserved bits between them, side by side (R37). -/
theorem append_fields (v : Word) :
    v.extractLsb' 29 3 ++ v.extractLsb' 24 5 ++ v.extractLsb' 19 5 ++ v.extractLsb' 16 3 ++
      v.extractLsb' 13 3 ++ v.extractLsb' 8 5 ++ v.extractLsb' 5 3 ++ v.extractLsb' 4 1 ++
      v.extractLsb' 0 4 = v := by
  simp only [BitVec.extractLsb'_append_extractLsb'_eq_extractLsb']
  exact BitVec.extractLsb'_eq_self

/-- Words are equal when their fields and their reserved bits are (R37). -/
theorem word_eq_iff_fields (v w : Word) :
    v = w ↔ v.extractLsb' 0 4 = w.extractLsb' 0 4 ∧ v.extractLsb' 4 1 = w.extractLsb' 4 1 ∧
      v.extractLsb' 5 3 = w.extractLsb' 5 3 ∧ v.extractLsb' 8 5 = w.extractLsb' 8 5 ∧
      v.extractLsb' 13 3 = w.extractLsb' 13 3 ∧ v.extractLsb' 16 3 = w.extractLsb' 16 3 ∧
      v.extractLsb' 19 5 = w.extractLsb' 19 5 ∧ v.extractLsb' 24 5 = w.extractLsb' 24 5 ∧
      v.extractLsb' 29 3 = w.extractLsb' 29 3 := by
  constructor
  · rintro rfl
    simp
  · rintro ⟨h0, h4, h5, h8, h13, h16, h19, h24, h29⟩
    rw [← append_fields v, ← append_fields w, h0, h4, h5, h8, h13, h16, h19, h24, h29]

/-- Bit 4 names the scheme (R38). -/
theorem schemeOf_schField (v : Word) :
    schemeOf (schField v) = if v.getLsbD 4 then .midrise else .midtread := by
  have hbit : v.getLsbD 4 = decide (schField v = 1) := by
    rw [← BitVec.testBit_toNat, Nat.testBit_eq_decide_div_mod_eq, ← Nat.shiftRight_eq_div_pow]
    rfl
  simp only [hbit, decide_eq_true_eq, schemeOf]

@[simp] theorem schemeOf_schemeCode (sch : Scheme) : schemeOf (schemeCode sch) = sch := by
  cases sch <;> rfl

theorem schemeCode_lt (sch : Scheme) : schemeCode sch < 2 := by cases sch <;> decide

@[simp] theorem schemeCode_schemeOf_schField (v : Word) :
    schemeCode (schemeOf (schField v)) = schField v := by
  have hlt : schField v < 2 := Nat.mod_lt _ (by decide)
  interval_cases h : schField v <;> rfl

/-- A number placed above the bits of another is added to it (R6). -/
theorem or_shiftLeft_eq_add {x k : Nat} (y : Nat) (h : x < 2 ^ k) :
    x ||| y <<< k = x + 2 ^ k * y := by
  rw [Nat.or_comm, ← Nat.shiftLeft_add_eq_or_of_lt h, Nat.shiftLeft_eq, Nat.mul_comm, Nat.add_comm]

/-- The fields of a command word stand side by side: its number is their sum (R37). -/
theorem toNat_commandWord {op sch nb rs rm : Nat} (hop : op < 16) (hsch : sch < 2) (hnb : nb < 32)
    (hrs : rs < 8) (hrm : rm < 32) :
    (commandWord op sch nb rs rm).toNat =
      op + 2 ^ 4 * sch + 2 ^ 8 * nb + 2 ^ 16 * rs + 2 ^ 24 * rm := by
  rw [commandWord, or_shiftLeft_eq_add sch (by omega), or_shiftLeft_eq_add nb (by omega),
    or_shiftLeft_eq_add rs (by omega), or_shiftLeft_eq_add rm (by omega),
    BitVec.toNat_ofNat, Nat.mod_eq_of_lt (by omega)]

theorem opField_eq (v : Word) : opField v = (v.extractLsb' 0 4).toNat := rfl
theorem schField_eq (v : Word) : schField v = (v.extractLsb' 4 1).toNat := rfl
theorem nbField_eq (v : Word) : nbField v = (v.extractLsb' 8 5).toNat := rfl
theorem rsField_eq (v : Word) : rsField v = (v.extractLsb' 16 3).toNat := rfl
theorem rmField_eq (v : Word) : rmField v = (v.extractLsb' 24 5).toNat := rfl

/-- Every field is read back from a command word: no bit of an argument that fits is lost (R37). -/
theorem fields_commandWord {op sch nb rs rm : Nat} (hop : op < 16) (hsch : sch < 2) (hnb : nb < 32)
    (hrs : rs < 8) (hrm : rm < 32) :
    schField (commandWord op sch nb rs rm) = sch ∧ nbField (commandWord op sch nb rs rm) = nb ∧
      rsField (commandWord op sch nb rs rm) = rs ∧ rmField (commandWord op sch nb rs rm) = rm := by
  simp only [schField, nbField, rsField, rmField, bitField, Nat.shiftRight_eq_div_pow,
    toNat_commandWord hop hsch hnb hrs hrm]
  refine ⟨?_, ?_, ?_, ?_⟩ <;> omega

/-- The reserved bits of a command word are 0 (R37, R42). -/
def ReservedClear (v : Word) : Prop :=
  v.extractLsb' 5 3 = 0 ∧ v.extractLsb' 13 3 = 0 ∧ v.extractLsb' 19 5 = 0 ∧ v.extractLsb' 29 3 = 0

/-- A word without reserved bits is the command word of its own fields (R37). -/
theorem commandWord_fields {v : Word} (h : ReservedClear v) :
    commandWord (opField v) (schField v) (nbField v) (rsField v) (rmField v) = v := by
  obtain ⟨h5, h13, h19, h29⟩ := h
  have hsum := congrArg BitVec.toNat (append_fields v)
  simp only [Machine.toNat_append_eq_add, h5, h13, h19, h29, BitVec.ofNat_eq_ofNat,
    BitVec.toNat_zero] at hsum
  apply BitVec.eq_of_toNat_eq
  rw [opField_eq, schField_eq, nbField_eq, rsField_eq, rmField_eq,
    toNat_commandWord (BitVec.isLt _) (BitVec.isLt _) (BitVec.isLt _) (BitVec.isLt _)
      (BitVec.isLt _), ← hsum]
  omega

/-! ### Rows of the table (R40) -/

/-- The value of `OP` that a row asks for (R40). -/
def EncodingRow.opcode (row : EncodingRow) : BitVec 4 := row.pattern.extractLsb' 0 4

theorem EncodingRow.selects_iff (row : EncodingRow) (v : Word) :
    row.selects v = true ↔ v &&& row.mask = row.pattern := beq_iff_eq

/-- A row that selects a word asks for the value its `OP` holds (R40). -/
theorem EncodingRow.opcode_of_selects {row : EncodingRow} {v : Word} (hrow : row ∈ encodingRows)
    (h : row.selects v = true) : row.opcode = v.extractLsb' 0 4 := by
  have hmask : ∀ r ∈ encodingRows, r.mask.extractLsb' 0 4 = BitVec.allOnes 4 := by decide
  rw [EncodingRow.opcode, ← (row.selects_iff v).1 h, BitVec.extractLsb'_and, hmask row hrow,
    BitVec.and_allOnes]

/-- The rows are disjoint, since their values of `OP` differ (R40). -/
theorem EncodingRow.eq_of_selects {a b : EncodingRow} {v : Word} (ha : a ∈ encodingRows)
    (hb : b ∈ encodingRows) (hav : a.selects v = true) (hbv : b.selects v = true) : a = b := by
  have hdiffer : ∀ r ∈ encodingRows, ∀ r' ∈ encodingRows, r.opcode = r'.opcode → r = r' := by
    decide
  exact hdiffer a ha b hb ((opcode_of_selects ha hav).trans (opcode_of_selects hb hbv).symm)

theorem Instr.row_mem (i : Instr) : i.row ∈ encodingRows := by
  cases i <;> simp [Instr.row, encodingRows]

@[simp] theorem Instr.opcode_uqEnc (nb : Nat) (sch : Scheme) :
    (Instr.uqEnc nb sch).row.opcode = 1#4 := rfl
@[simp] theorem Instr.opcode_uqDec (nb : Nat) (sch : Scheme) :
    (Instr.uqDec nb sch).row.opcode = 2#4 := rfl
@[simp] theorem Instr.opcode_lzc (nb : Nat) : (Instr.lzc nb).row.opcode = 3#4 := rfl
@[simp] theorem Instr.opcode_flpEnc (rs rm : Nat) : (Instr.flpEnc rs rm).row.opcode = 4#4 := rfl
@[simp] theorem Instr.opcode_flpDec (rs rm : Nat) : (Instr.flpDec rs rm).row.opcode = 5#4 := rfl

/-- The fields that the command does not use are 0 (R39). -/
def Instr.UnusedClear (i : Instr) (v : Word) : Prop :=
  match i with
  | .uqEnc _ _ => v.extractLsb' 16 3 = 0 ∧ v.extractLsb' 24 5 = 0
  | .uqDec _ _ => v.extractLsb' 16 3 = 0 ∧ v.extractLsb' 24 5 = 0
  | .lzc _ => v.extractLsb' 4 1 = 0 ∧ v.extractLsb' 16 3 = 0 ∧ v.extractLsb' 24 5 = 0
  | .flpEnc _ _ => v.extractLsb' 4 1 = 0 ∧ v.extractLsb' 8 5 = 0
  | .flpDec _ _ => v.extractLsb' 4 1 = 0 ∧ v.extractLsb' 8 5 = 0

/-- What match and mask of a command's row say of the fields (R39, R40). -/
theorem Instr.row_selects_iff (i : Instr) (v : Word) :
    i.row.selects v = true ↔
      v.extractLsb' 0 4 = i.row.opcode ∧ ReservedClear v ∧ i.UnusedClear v := by
  have h1 (x : BitVec 1) : x &&& 1#1 = x := BitVec.and_allOnes
  have h3 (x : BitVec 3) : x &&& 7#3 = x := BitVec.and_allOnes
  have h4 (x : BitVec 4) : x &&& 15#4 = x := BitVec.and_allOnes
  have h5 (x : BitVec 5) : x &&& 31#5 = x := BitVec.and_allOnes
  rw [EncodingRow.selects_iff, word_eq_iff_fields]
  cases i <;>
  · simp [Instr.row, uqEncRow, uqDecRow, lzcRow, flpEncRow, flpDecRow, EncodingRow.opcode,
      ReservedClear, Instr.UnusedClear, BitVec.extractLsb'_and, h1, h3, h4, h5]
    tauto

/-! ### The decoder and the encoder (R41, R46) -/

/-- The command of the same row with the fields of a word as its arguments (R40). -/
def Instr.withFields (i : Instr) (v : Word) : Instr :=
  match i with
  | .uqEnc _ _ => .uqEnc (nbField v) (schemeOf (schField v))
  | .uqDec _ _ => .uqDec (nbField v) (schemeOf (schField v))
  | .lzc _ => .lzc (nbField v)
  | .flpEnc _ _ => .flpEnc (rsField v) (rmField v)
  | .flpDec _ _ => .flpDec (rsField v) (rmField v)

@[simp] theorem Instr.withFields_row (i : Instr) (v : Word) : (i.withFields v).row = i.row := by
  cases i <;> rfl

@[simp] theorem Instr.withFields_withFields (i : Instr) (v w : Word) :
    (i.withFields v).withFields w = i.withFields w := by
  cases i <;> rfl

/-- A word that a command's row selects decodes to that command with the word's fields (R41): no
earlier row of the dispatch selects it. -/
theorem decode_of_selects {i : Instr} {v : Word} (h : i.row.selects v = true) :
    decode v = .ok (i.withFields v) := by
  have hother {row : EncodingRow} (hrow : row ∈ encodingRows) (hne : row ≠ i.row) :
      ¬ row.selects v = true :=
    fun hv => hne (EncodingRow.eq_of_selects hrow i.row_mem hv h)
  unfold decode
  cases i with
  | uqEnc nb sch => exact if_pos h
  | uqDec nb sch =>
    rw [if_neg (hother (by decide) (by decide : uqEncRow ≠ uqDecRow))]
    exact if_pos h
  | lzc nb =>
    rw [if_neg (hother (by decide) (by decide : uqEncRow ≠ lzcRow)),
      if_neg (hother (by decide) (by decide : uqDecRow ≠ lzcRow))]
    exact if_pos h
  | flpEnc rs rm =>
    rw [if_neg (hother (by decide) (by decide : uqEncRow ≠ flpEncRow)),
      if_neg (hother (by decide) (by decide : uqDecRow ≠ flpEncRow)),
      if_neg (hother (by decide) (by decide : lzcRow ≠ flpEncRow))]
    exact if_pos h
  | flpDec rs rm =>
    rw [if_neg (hother (by decide) (by decide : uqEncRow ≠ flpDecRow)),
      if_neg (hother (by decide) (by decide : uqDecRow ≠ flpDecRow)),
      if_neg (hother (by decide) (by decide : lzcRow ≠ flpDecRow)),
      if_neg (hother (by decide) (by decide : flpEncRow ≠ flpDecRow))]
    exact if_pos h

/-- A word decodes to a command exactly when the command's row selects it and its fields are the
command's arguments (R40, R41). -/
theorem decode_eq_ok_iff (v : Word) (i : Instr) :
    decode v = .ok i ↔ i.row.selects v = true ∧ i.withFields v = i := by
  constructor
  · intro h
    unfold decode at h
    split_ifs at h with hrow hrow hrow hrow hrow <;> cases h <;> exact ⟨hrow, rfl⟩
  · rintro ⟨hrow, hfields⟩
    rw [decode_of_selects hrow, hfields]

/-- The fields of a word decide the arguments, so its row alone decides that it decodes (R40). -/
theorem decode_withFields_iff (v : Word) (i : Instr) :
    decode v = .ok (i.withFields v) ↔ i.row.selects v = true := by
  simp [decode_eq_ok_iff]

/-- A word is illegal exactly when no row selects it (R42). -/
theorem decode_eq_error_iff (v : Word) :
    decode v = .error .illegalCommand ↔ ∀ i : Instr, ¬ i.row.selects v = true := by
  constructor
  · intro h i hi
    rw [decode_of_selects hi] at h
    cases h
  · intro h
    cases hd : decode v with
    | ok i => exact absurd ((decode_eq_ok_iff v i).1 hd).1 (h i)
    | error e => rw [Machine.decode_error hd]

/-- The word of a well-formed command is selected by the command's row (R40, R46). -/
theorem Instr.row_selects_encode {i : Instr} (h : i.wellFormed = true) :
    i.row.selects (encode i) = true := by
  cases i with
  | uqEnc nb sch => exact Laws.EncodeSelectsRow.uqEnc nb sch h
  | uqDec nb sch => exact Laws.EncodeSelectsRow.uqDec nb sch h
  | lzc nb => exact Laws.EncodeSelectsRow.lzc nb h
  | flpEnc rs rm => exact Laws.EncodeSelectsRow.flpEnc rs rm h
  | flpDec rs rm => exact Laws.EncodeSelectsRow.flpDec rs rm h

/-- The fields of a well-formed command's word are the command's arguments (R37). -/
theorem Instr.withFields_encode {i : Instr} (h : i.wellFormed = true) :
    i.withFields (encode i) = i := by
  cases i <;> simp only [Instr.wellFormed, nbFits, rsFits, rmFits, Bool.and_eq_true,
    decide_eq_true_eq] at h
  case uqEnc nb sch =>
    obtain ⟨hsch, hnb, -, -⟩ := fields_commandWord (op := 1) (rs := 0) (rm := 0) (by decide)
      (schemeCode_lt sch) h (by decide) (by decide)
    simp only [encode, Instr.withFields, hsch, hnb, schemeOf_schemeCode]
  case uqDec nb sch =>
    obtain ⟨hsch, hnb, -, -⟩ := fields_commandWord (op := 2) (rs := 0) (rm := 0) (by decide)
      (schemeCode_lt sch) h (by decide) (by decide)
    simp only [encode, Instr.withFields, hsch, hnb, schemeOf_schemeCode]
  case lzc nb =>
    obtain ⟨-, hnb, -, -⟩ := fields_commandWord (op := 3) (sch := 0) (rs := 0) (rm := 0)
      (by decide) (by decide) h (by decide) (by decide)
    simp only [encode, Instr.withFields, hnb]
  case flpEnc rs rm =>
    obtain ⟨-, -, hrs, hrm⟩ := fields_commandWord (op := 4) (sch := 0) (nb := 0) (by decide)
      (by decide) (by decide) h.1 h.2
    simp only [encode, Instr.withFields, hrs, hrm]
  case flpDec rs rm =>
    obtain ⟨-, -, hrs, hrm⟩ := fields_commandWord (op := 5) (sch := 0) (nb := 0) (by decide)
      (by decide) (by decide) h.1 h.2
    simp only [encode, Instr.withFields, hrs, hrm]

/-- A word that a command's row selects is the word of that command with the word's fields: the row
fixes every bit that is not an argument (R39, R40). -/
theorem encode_withFields {i : Instr} {v : Word} (h : i.row.selects v = true) :
    encode (i.withFields v) = v := by
  obtain ⟨hop, hreserved, hunused⟩ := (i.row_selects_iff v).1 h
  have hword := commandWord_fields hreserved
  rw [opField_eq, hop] at hword
  cases i with
  | uqEnc nb sch =>
    obtain ⟨hrs, hrm⟩ := hunused
    rwa [rsField_eq, rmField_eq, hrs, hrm, ← schemeCode_schemeOf_schField] at hword
  | uqDec nb sch =>
    obtain ⟨hrs, hrm⟩ := hunused
    rwa [rsField_eq, rmField_eq, hrs, hrm, ← schemeCode_schemeOf_schField] at hword
  | lzc nb =>
    obtain ⟨hsch, hrs, hrm⟩ := hunused
    rwa [schField_eq, rsField_eq, rmField_eq, hsch, hrs, hrm] at hword
  | flpEnc rs rm =>
    obtain ⟨hsch, hnb⟩ := hunused
    rwa [schField_eq, nbField_eq, hsch, hnb] at hword
  | flpDec rs rm =>
    obtain ⟨hsch, hnb⟩ := hunused
    rwa [schField_eq, nbField_eq, hsch, hnb] at hword

/-- Settles O1: the row of the command selects its word, and the fields of that word are the
arguments. -/
theorem decodeOfEncodeIsTheCommand : Obligations.DecodeOfEncodeIsTheCommand := fun i h =>
  (decode_eq_ok_iff _ i).2 ⟨Instr.row_selects_encode h, Instr.withFields_encode h⟩

/-- Settles O2: the word's fields are the arguments of the command, and its row fixes the other
bits. -/
theorem encodeOfDecodeIsTheWord : Obligations.EncodeOfDecodeIsTheWord := by
  intro v i h
  obtain ⟨hrow, hfields⟩ := (decode_eq_ok_iff v i).1 h
  refine ⟨Machine.wellFormed_of_decode h, ?_⟩
  rw [← hfields, encode_withFields hrow]

end Sys2Proof

namespace Sys2Proof.Machine

/-! ### What a command delivers (R41, R44, R70) -/

/-- The configuration check of the floating-point commands (R61, R70). -/
theorem flpLegal_eq_false {rs rm : Nat} (h : rs < 1 ∨ rm < 1 ∨ 24 < 2 ^ rs - 1 + rm) :
    flpLegal rs rm = false := by
  rw [← Bool.not_eq_true, flpLegal_iff]
  omega

/-- The width check of the uniform commands and of `LZC` (R5, R70). -/
theorem widthLegal_eq_false {n : Nat} (h : n < 2 ∨ 24 < n) : widthLegal n = false := by
  rw [← Bool.not_eq_true, widthLegal_iff]
  omega

/-- A parameter error is what the command delivers, whatever its other operands are (R69, R70). -/
theorem instrResult_of_parameterError {i : Instr} {r : Regs} (h : parameterError i r) :
    instrResult i r.maxr r.opa r.opb = .error .invalidParameter := by
  cases i with
  | uqEnc nb sch =>
    apply uqEncode_error
    rw [sint32_eq_toInt]
    obtain hnb | hnb | hmaxr := h
    · exact .inl (widthLegal_eq_false (.inl hnb))
    · exact .inl (widthLegal_eq_false (.inr hnb))
    · exact .inr hmaxr
  | uqDec nb sch => exact uqDecode_invalid sch r.opa (widthLegal_eq_false h)
  | lzc nb => exact leadingZeros_invalid r.opa (widthLegal_eq_false h)
  | flpEnc rs rm => exact flpEncode_invalid r.opa (flpLegal_eq_false h)
  | flpDec rs rm => exact flpDecode_invalid r.opa r.opb (flpLegal_eq_false h)

/-- A command with a parameter error raises `InvalidParameter` (R41, R70). -/
theorem exec_of_parameterError {i : Instr} {s : State} (h : parameterError i s.regs) :
    exec i s = .next (s.raise .invalidParameter) := by
  rw [exec_eq_finish, instrResult_of_parameterError h, State.finish_error]

/-- A word that decodes to no command raises the decoder's error (R42). -/
theorem execute_of_decode_error {v : Word} {e : CommandError} (h : decode v = .error e) (s : State) :
    execute v s = .next (s.raise e) := by
  rw [execute, h]

/-- What a command delivers is read from the operand registers that it lists (R44): `OPA`, `MAXR` for
`UQ.ENC` and `OPB` for `FLP.DEC`. -/
theorem instrResult_congr {i : Instr} {maxr maxr' opa opa' opb opb' : Word} (hopa : opa = opa')
    (hmaxr : (∃ n sch, i = .uqEnc n sch) → maxr = maxr')
    (hopb : (∃ rs rm, i = .flpDec rs rm) → opb = opb') :
    instrResult i maxr opa opb = instrResult i maxr' opa' opb' := by
  subst hopa
  cases i with
  | uqEnc nb sch => rw [hmaxr ⟨nb, sch, rfl⟩, instrResult, instrResult]
  | uqDec nb sch => rfl
  | lzc nb => rfl
  | flpEnc rs rm => rfl
  | flpDec rs rm => rw [hopb ⟨rs, rm, rfl⟩, instrResult, instrResult]

/-- The end of a command writes the flags, and the results when it completes, from the delivery
alone (R71, R72). -/
theorem State.finish_outcome_congr (s s' : State) (r : Except CommandError Completion) :
    (s.finish r).regs.err = (s'.finish r).regs.err ∧
      (s.finish r).regs.sat = (s'.finish r).regs.sat ∧
      (s.finish r).regs.denorm = (s'.finish r).regs.denorm ∧
      ((s.finish r).regs.err = 0 → (s.finish r).regs.res0 = (s'.finish r).regs.res0 ∧
        (s.finish r).regs.res1 = (s'.finish r).regs.res1 ∧
        (s.finish r).regs.res2 = (s'.finish r).regs.res2) := by
  cases r with
  | ok c => simp
  | error e => simp [errorCode_ne_zero]

/-! ### Dispatch (R41, R42) -/

/-- A word is illegal exactly when no command has the word's `OP`, with the reserved bits 0 and the
fields it does not use 0 (R39, R42). -/
theorem decode_eq_error_iff_fields (v : Word) :
    decode v = .error .illegalCommand ↔
      ∀ i : Instr, v.extractLsb' 0 4 = i.row.opcode → ReservedClear v → ¬ i.UnusedClear v := by
  simp only [decode_eq_error_iff, Instr.row_selects_iff, not_and]

/-- A value of `OP` is 0, names a command or is above 5 (R37). -/
theorem opcode_cases (op : BitVec 4) :
    op = 0 ∨ op = 1 ∨ op = 2 ∨ op = 3 ∨ op = 4 ∨ op = 5 ∨ 6 ≤ op.toNat := by
  revert op
  decide

/-- Settles O3: in a word without any of the reasons `OP` names a command whose row selects the word,
and each of the reasons denies what a row asks for. -/
theorem illegalWordsAreExactlyThese : Obligations.IllegalWordsAreExactlyThese := by
  refine ⟨fun v => ?_, fun v s h => execute_of_decode_error h s, rfl, by decide, rfl, rfl⟩
  rw [decode_eq_error_iff_fields]
  constructor
  · intro hillegal
    by_contra hnone
    simp only [not_or, not_and, not_not] at hnone
    obtain ⟨hop0, hop6, h5, h13, h19, h29, hfloating, hnb, hsch⟩ := hnone
    have hreserved : ReservedClear v := ⟨h5, h13, h19, h29⟩
    rcases opcode_cases (v.extractLsb' 0 4) with hop | hop | hop | hop | hop | hop | hop
    · exact hop0 hop
    · exact hillegal (.uqEnc 0 .midtread) hop hreserved (hfloating (by simp [hop]))
    · exact hillegal (.uqDec 0 .midtread) hop hreserved (hfloating (by simp [hop]))
    · exact hillegal (.lzc 0) hop hreserved ⟨hsch (by simp [hop]), hfloating (by simp [hop])⟩
    · exact hillegal (.flpEnc 0 0) hop hreserved ⟨hsch (by simp [hop]), hnb (by simp [hop])⟩
    · exact hillegal (.flpDec 0 0) hop hreserved ⟨hsch (by simp [hop]), hnb (by simp [hop])⟩
    · exact hop6 hop
  · rintro hreason i hop ⟨h5, h13, h19, h29⟩ hunused
    cases i <;>
    · simp only [Instr.opcode_uqEnc, Instr.opcode_uqDec, Instr.opcode_lzc, Instr.opcode_flpEnc,
        Instr.opcode_flpDec, Instr.UnusedClear] at hop hunused
      simp [hop, h5, h13, h19, h29, hunused] at hreason

/-- Settles O4: the word's fields decide the arguments, so the row alone decides that the word decodes
to them; the rows are disjoint. -/
theorem rowsSelectByMatchAndMask : Obligations.RowsSelectByMatchAndMask := by
  refine ⟨fun v => ?_, fun v a b => EncodingRow.eq_of_selects⟩
  have hdecode (i : Instr) : v &&& i.row.mask = i.row.pattern ↔ decode v = .ok (i.withFields v) :=
    (i.row.selects_iff v).symm.trans (decode_withFields_iff v i).symm
  rw [← schemeOf_schField]
  exact ⟨hdecode (.uqEnc 0 .midtread), hdecode (.uqDec 0 .midtread), hdecode (.lzc 0),
    hdecode (.flpEnc 0 0), hdecode (.flpDec 0 0)⟩

/-- Settles O5: each mask test of the dispatch is a row of the table, and a parameter error is what the
command delivers before it looks at its operands. -/
theorem executeFollowsTheDispatch : Obligations.ExecuteFollowsTheDispatch := by
  refine ⟨fun v s => ?_, fun i s hfits hparam =>
    ⟨decodeOfEncodeIsTheCommand i hfits, exec_of_parameterError hparam⟩⟩
  have hrun (i : Instr) (hrow : v &&& i.row.mask = i.row.pattern) :
      execute v s = exec (i.withFields v) s :=
    execute_of_decode_ok (decode_of_selects ((i.row.selects_iff v).2 hrow)) s
  rw [← schemeOf_schField]
  dsimp only
  split_ifs with huqEnc huqDec hlzc hflpEnc hflpDec
  · exact hrun (.uqEnc 0 .midtread) huqEnc
  · exact hrun (.uqDec 0 .midtread) huqDec
  · exact hrun (.lzc 0) hlzc
  · exact hrun (.flpEnc 0 0) hflpEnc
  · exact hrun (.flpDec 0 0) hflpDec
  · refine execute_of_decode_error ((decode_eq_error_iff v).2 fun i hi => ?_) s
    have hrow := (i.row.selects_iff v).1 hi
    cases i with
    | uqEnc => exact huqEnc hrow
    | uqDec => exact huqDec hrow
    | lzc => exact hlzc hrow
    | flpEnc => exact hflpEnc hrow
    | flpDec => exact hflpDec hrow

/-- Settles O6: each word is the word of the command named, whose arguments fit their fields. -/
theorem sampleWordsDecode : Obligations.SampleWordsDecode :=
  ⟨decodeOfEncodeIsTheCommand (.uqEnc 8 .midtread) rfl,
    decodeOfEncodeIsTheCommand (.uqEnc 8 .midrise) rfl,
    decodeOfEncodeIsTheCommand (.uqDec 8 .midrise) rfl,
    decodeOfEncodeIsTheCommand (.lzc 12) rfl,
    decodeOfEncodeIsTheCommand (.flpEnc 3 5) rfl,
    decodeOfEncodeIsTheCommand (.flpDec 3 5) rfl,
    decodeOfEncodeIsTheCommand (.uqEnc 31 .midrise) rfl,
    decodeOfEncodeIsTheCommand (.flpDec 7 31) rfl⟩

/-! ### Operands and host programs (R44, R47) -/

/-- Settles O19: the two states deliver the same, and `finish` writes the outcome from the delivery
alone. -/
theorem unlistedOperandsAreNotRead : Obligations.UnlistedOperandsAreNotRead := by
  intro i s s' hopa hmaxr hopb
  refine ⟨_, _, exec_eq_finish i s, exec_eq_finish i s', ?_⟩
  rw [instrResult_congr hopa hmaxr hopb]
  exact State.finish_outcome_congr s s' _

/-- Settles O45: an address is `BASE` plus the register's offset, and each pseudo-instruction is its
list of accesses. -/
theorem pseudoInstructionsExpand : Obligations.PseudoInstructionsExpand := by
  intro s i r n rs rm sch v w
  exact ⟨rfl, rfl, rfl, rfl, rfl, rfl, rfl, rfl, rfl, rfl⟩

end Sys2Proof.Machine

/-! PROOF. The uniform quantizer of 40_uniform_quantizer.md: what both commands deliver (R50 to R55),
the laws of the magnitude code (R51, R57), the reconstruction (R54) and the round trip (R56). -/

namespace Sys2Proof.Machine

/-! ### Bins and magnitude codes (R51, R52) -/

/-- A larger magnitude falls in no lower bin. -/
theorem uqeBin_mono {k k' : Nat} (n : Nat) (sch : Scheme) (h : k ≤ k') :
    uqeBin k n sch ≤ uqeBin k' n sch := by
  cases sch with
  | midrise =>
    rw [uqeBin_midrise, uqeBin_midrise]
    exact Nat.div_le_div_right (Nat.mul_le_mul_left _ h)
  | midtread =>
    rw [uqeBin_midtread, uqeBin_midtread]
    exact Nat.div_le_div_right (Nat.add_le_add_right (Nat.mul_le_mul_left _ h) _)

/-- The bin of a magnitude below 1.0 needs no clamp (R51). -/
theorem uqeBin_le_maxMag {k n : Nat} (sch : Scheme) (hn : 1 ≤ n) (hk : k < 2 ^ 24) :
    uqeBin k n sch ≤ maxMag n := by
  have hpow := two_pow_eq_two_mul_pred hn
  have hpos := Nat.two_pow_pos (n - 1)
  suffices uqeBin k n sch < 2 ^ (n - 1) from Nat.le_sub_one_of_lt this
  cases sch with
  | midrise =>
    rw [uqeBin_midrise, Nat.div_lt_iff_lt_mul (by decide)]
    exact Nat.mul_lt_mul_of_pos_left hk hpos
  | midtread =>
    have hprod : (2 ^ n - 1) * k ≤ (2 ^ n - 1) * (2 ^ 24 - 1) :=
      Nat.mul_le_mul_left _ (Nat.le_sub_one_of_lt hk)
    rw [uqeBin_midtread, Nat.div_lt_iff_lt_mul (by decide)]
    omega

/-- `UQE_MAG` as one clip: it saturates at `max_range` and where the bin leaves the code (R51). -/
theorem uqeMag_eq (k : Nat) (mr : Int) (n : Nat) (sch : Scheme) :
    uqeMag k mr n sch =
      (if mr ≤ k ∨ maxMag n < uqeBin k n sch then maxMag n else uqeBin k n sch,
        decide (mr ≤ k ∨ maxMag n < uqeBin k n sch)) := by
  rcases uqeMag_cases k mr n sch with ⟨hsat, h⟩ | ⟨hk, hbin, h⟩
  · rw [h, if_pos hsat, decide_eq_true hsat]
  · have hsat : ¬ (mr ≤ k ∨ maxMag n < uqeBin k n sch) := by omega
    rw [h, if_neg hsat, decide_eq_false hsat]

theorem uqeMag_saturated {k : Nat} {mr : Int} (n : Nat) (sch : Scheme) (h : mr ≤ k) :
    uqeMag k mr n sch = (maxMag n, true) := by
  simp [uqeMag_eq, h]

theorem uqeMag_unclipped {k n : Nat} {mr : Int} (sch : Scheme) (hn : 1 ≤ n) (hmr : (k : Int) < mr)
    (hk : k < 2 ^ 24) : uqeMag k mr n sch = (uqeBin k n sch, false) := by
  simp [uqeMag_eq, not_le.2 hmr, not_lt.2 (uqeBin_le_maxMag sch hn hk)]

theorem uqeMag_le (k : Nat) (mr : Int) (n : Nat) (sch : Scheme) :
    (uqeMag k mr n sch).1 ≤ maxMag n :=
  Nat.le_sub_one_of_lt (uqeMag_lt k mr n sch)

theorem uqeMag_mono {k k' : Nat} (mr : Int) (n : Nat) (sch : Scheme) (h : k ≤ k') :
    (uqeMag k mr n sch).1 ≤ (uqeMag k' mr n sch).1 := by
  rcases uqeMag_cases k' mr n sch with ⟨-, h'⟩ | ⟨hk', hbin, h'⟩ <;> rw [h']
  · exact uqeMag_le k mr n sch
  · have hmono := uqeBin_mono n sch h
    have hsat : ¬ (mr ≤ k ∨ maxMag n < uqeBin k n sch) := by omega
    simpa only [uqeMag_eq, if_neg hsat] using hmono

/-- Settles O21: the two ways `UQE_MAG` answers, the monotone bins, and the bins below 1.0, which need
no clamp. -/
theorem uniformMagnitudeIsMonotoneAndSaturates :
    Obligations.UniformMagnitudeIsMonotoneAndSaturates := by
  intro n sch mr hn _ _
  exact ⟨fun _ => uqeMag_saturated n sch, fun _ _ => uqeMag_mono mr n sch,
    fun k => uqeMag_le k mr n sch,
    fun hmr k hk => uqeMag_unclipped sch (by omega) hk (by omega)⟩

/-! ### Codewords and signed codes (R53, R55) -/

@[simp] theorem natAbs_signed (sign : Bool) (m : Nat) : (signed sign m).natAbs = m := by
  cases sign <;> simp [signed]

theorem signed_not (sign : Bool) (m : Nat) : signed (!sign) m = -signed sign m := by
  cases sign <;> simp [signed]

/-- An integer is its magnitude with its sign (R50). -/
theorem signed_natAbs (i : Int) : signed (decide (i < 0)) i.natAbs = i := by
  unfold signed
  split_ifs with h <;> simp only [decide_eq_true_eq] at h <;> omega

theorem natAbs_signed_sub_signed (sign : Bool) (m m' : Nat) :
    (signed sign m - signed sign m').natAbs = ((m : Int) - m').natAbs := by
  cases sign with
  | false => rfl
  | true =>
    show (-(m : Int) - -(m' : Int)).natAbs = _
    omega

/-- The sign of an `n`-bit codeword tells its upper half (R55). -/
theorem codeSign_eq {n c : Nat} (hn : 1 ≤ n) (hc : c < 2 ^ n) :
    codeSign n c = decide (2 ^ (n - 1) ≤ c) := by
  unfold codeSign
  by_cases h : 2 ^ (n - 1) ≤ c
  · rw [decide_eq_true h]
    exact Nat.testBit_of_two_pow_le_and_two_pow_add_one_gt h (by rwa [Nat.sub_add_cancel hn])
  · rw [decide_eq_false h]
    exact Nat.testBit_lt_two_pow (not_le.1 h)

/-- Codewords of one magnitude and opposite signs differ in the sign bit alone (R57). -/
theorem codeword_xor_not {n m : Nat} (sign : Bool) (h : m < 2 ^ (n - 1)) :
    codeword n sign m ^^^ codeword n (!sign) m = 2 ^ (n - 1) := by
  have hset : codeword n true m = 2 ^ (n - 1) ||| m := by simp [codeword, Nat.shiftLeft_eq]
  have hclear : codeword n false m = m := by simp [codeword]
  have hxor : (2 ^ (n - 1) ||| m) ^^^ m = 2 ^ (n - 1) := by
    refine Nat.eq_of_testBit_eq fun i => ?_
    rw [Nat.testBit_xor, Nat.testBit_or, Nat.testBit_two_pow]
    by_cases hi : n - 1 = i
    · subst hi
      simp [Nat.testBit_lt_two_pow h]
    · simp [hi]
  cases sign with
  | false => rw [Bool.not_false, hset, hclear, Nat.xor_comm, hxor]
  | true => rw [Bool.not_true, hset, hclear, hxor]

/-- A codeword of a legal width is the number its register holds (R53). -/
theorem toNat_ofNat_codeword {n m : Nat} (sign : Bool) (hn : 1 ≤ n) (hn' : n ≤ 24)
    (hm : m < 2 ^ (n - 1)) :
    (BitVec.ofNat 32 (codeword n sign m)).toNat = codeword n sign m := by
  have hlt := codeword_lt sign hn hm
  have hmax := two_pow_le_two_pow_24 hn'
  exact toNat_zext32 (by omega)

/-- A signed code or value below 1.0 is the number its register holds (R53, R55). -/
theorem toInt_ofInt_signed {m : Nat} (sign : Bool) (hm : m < 2 ^ 24) :
    (BitVec.ofInt 32 (signed sign m)).toInt = signed sign m := by
  have habs := natAbs_signed sign m
  exact toInt_word32 (by omega) (by omega)

/-! ### What the commands deliver (R50, R53, R55) -/

/-- `UQ.ENC` with a legal width and range completes with the codeword, the signed code and the
magnitude code of its operand (R53). -/
theorem exec_uqEnc_completes {n : Nat} {s : State} (sch : Scheme) (hn : 2 ≤ n) (hn' : n ≤ 24)
    (hmaxr : 0 < s.regs.maxr.toInt) {m : Nat × Bool}
    (hm : uqeMag s.regs.opa.toInt.natAbs s.regs.maxr.toInt n sch = m) :
    exec (.uqEnc n sch) s = .next (s.complete
      { res0 := BitVec.ofNat 32 (codeword n (decide (s.regs.opa.toInt < 0)) m.1)
        res1 := BitVec.ofInt 32 (signed (decide (s.regs.opa.toInt < 0)) m.1)
        res2 := BitVec.ofNat 32 m.1
        sat := m.2
        denorm := false }) := by
  subst hm
  rw [exec_uqEnc, uqEncode_ok sch _ ((widthLegal_iff n).2 ⟨hn, hn'⟩) (by rwa [sint32_eq_toInt])]
  simp only [signOf, magnitudeOf, sint32_eq_toInt, zext32_eq, word32_eq, State.finish_ok]

/-- `UQ.DEC` with a legal width and a codeword of that width completes with the reconstructed value
(R55). -/
theorem exec_uqDec_completes {n : Nat} {s : State} (sch : Scheme) (hn : 2 ≤ n) (hn' : n ≤ 24)
    (hcode : s.regs.opa.toNat < 2 ^ n) :
    exec (.uqDec n sch) s = .next (s.complete
      { res0 := BitVec.ofInt 32 (signed (codeSign n s.regs.opa.toNat)
          (uqdMag (codeMag n s.regs.opa.toNat) n sch))
        res1 := 0
        res2 := 0
        sat := false
        denorm := false }) := by
  rw [exec_uqDec, uqDecode_ok sch ((widthLegal_iff n).2 ⟨hn, hn'⟩) hcode, State.finish_ok, word32_eq]

/-- `UQ.DEC` of a codeword reconstructs the codeword's magnitude with its sign (R55). -/
theorem exec_uqDec_codeword {n m : Nat} {s : State} {sign : Bool} (sch : Scheme) (hn : 2 ≤ n)
    (hn' : n ≤ 24) (hm : m < 2 ^ (n - 1)) (hopa : s.regs.opa = BitVec.ofNat 32 (codeword n sign m)) :
    exec (.uqDec n sch) s = .next (s.complete
      { res0 := BitVec.ofInt 32 (signed sign (uqdMag m n sch))
        res1 := 0
        res2 := 0
        sat := false
        denorm := false }) := by
  have hcode : s.regs.opa.toNat = codeword n sign m :=
    hopa ▸ toNat_ofNat_codeword sign (by omega) hn' hm
  rw [exec_uqDec_completes sch hn hn' (hcode.trans_lt (codeword_lt sign (by omega) hm)), hcode,
    codeSign_codeword sign hm, codeMag_codeword sign hn hm]

/-- Settles O9: `UQE_MAG` at the plain form of its bin, and the codeword as a sum. -/
theorem uqEncResult : Obligations.UqEncResult := by
  intro s n sch hn hn' hmaxr k neg top q sat mag
  have hq : q = uqeBin k n sch := by
    cases sch with
    | midrise => exact (uqeBin_midrise k n).symm
    | midtread => exact (uqeBin_midtread k n).symm
  have hmag : uqeMag k s.regs.maxr.toInt n sch = (mag, sat) := by
    rw [uqeMag_eq, ← hq]
    simp only [mag, sat, decide_eq_true_eq]
    rfl
  have hlt : mag < 2 ^ (n - 1) := by
    have := uqeMag_lt k s.regs.maxr.toInt n sch
    rwa [hmag] at this
  rw [exec_uqEnc_completes sch hn hn' hmaxr hmag, codeword_eq _ hlt]
  rfl

/-- Settles O10: the sign and the magnitude of the codeword, and the plain form of `UQD_MAG`. -/
theorem uqDecResult : Obligations.UqDecResult := by
  intro s n sch hn hn' hcode m neg d
  have hd : d = uqdMag m n sch := by
    cases sch with
    | midrise => exact (Nat.shiftLeft_eq _ _).symm
    | midtread => rfl
  rw [exec_uqDec_completes sch hn hn' hcode, codeSign_eq (by omega) hcode, codeMag_eq hn, ← hd]
  rfl

/-- Settles O22: the codeword is its sign bit beside a magnitude that stays below it. -/
theorem uniformCodeFitsItsWidth : Obligations.UniformCodeFitsItsWidth := by
  intro s n sch hn hn' hmaxr
  refine ⟨_, exec_uqEnc_completes sch hn hn' hmaxr rfl, ?_⟩
  set m := (uqeMag s.regs.opa.toInt.natAbs s.regs.maxr.toInt n sch).1
  set neg := decide (s.regs.opa.toInt < 0)
  have hm : m < 2 ^ (n - 1) := uqeMag_lt _ _ _ _
  have hpow := two_pow_eq_two_mul_pred (n := n) (by omega)
  have hmax := two_pow_le_two_pow_24 hn'
  have hres2 : (BitVec.ofNat 32 m).toNat = m := toNat_zext32 (by omega)
  simp only [State.complete_regs, toNat_ofNat_codeword neg (by omega) hn' hm, hres2,
    toInt_ofInt_signed neg (show m < 2 ^ 24 by omega), natAbs_signed, true_and]
  exact ⟨Nat.le_sub_one_of_lt hm, codeword_lt neg (by omega) hm,
    codeMag_eq hn _ ▸ codeMag_codeword neg hn hm, codeSign_codeword neg hm⟩

/-! ### The sign law (R57) -/

/-- Negating a value word with a negation flips its sign and keeps its magnitude (R50). -/
theorem neg_flips_sign_keeps_natAbs {w : Word} (h0 : w ≠ 0) (hmin : w ≠ 0x80000000#32) :
    decide ((-w).toInt < 0) = !decide (w.toInt < 0) ∧ (-w).toInt.natAbs = w.toInt.natAbs := by
  have hne : w.toInt ≠ 0 := fun h => h0 (BitVec.toInt_inj.1 h)
  rw [BitVec.toInt_neg_of_ne_intMin hmin, Int.natAbs_neg, ← decide_not]
  exact ⟨decide_eq_decide.2 (by omega), rfl⟩

/-- Settles O23: a negation has the other sign and the same magnitude code, and 0 is not negative. -/
theorem negatedValueFlipsOnlyTheSignBit : Obligations.NegatedValueFlipsOnlyTheSignBit := by
  intro s n sch hn hn' hmaxr
  have hm := uqeMag_lt s.regs.opa.toInt.natAbs s.regs.maxr.toInt n sch
  refine ⟨fun h0 hmin => ?_, fun h0 => ?_⟩
  · obtain ⟨hsign, habs⟩ := neg_flips_sign_keeps_natAbs h0 hmin
    refine ⟨_, _, exec_uqEnc_completes sch hn hn' hmaxr rfl,
      exec_uqEnc_completes (s := { s with regs := { s.regs with opa := -s.regs.opa } }) sch hn hn'
        hmaxr (by rw [habs]), ?_⟩
    simp only [State.complete_regs, hsign, signed_not, BitVec.ofInt_neg, BitVec.neg_neg,
      ← BitVec.ofNat_xor, codeword_xor_not _ hm, and_self]
  · refine ⟨_, exec_uqEnc_completes sch hn hn' hmaxr rfl, ?_⟩
    rw [State.complete_regs, toNat_ofNat_codeword _ (by omega) hn' hm]
    exact (codeSign_codeword _ hm).trans (by simp [h0])

/-! ### Reconstruction (R54) -/

/-- Midrise reconstruction is exact: `(2M + 1) / 2^n` (R54). -/
theorem uqdMag_midrise_mul {n : Nat} (m : Nat) (hn' : n ≤ 24) :
    uqdMag m n .midrise * 2 ^ n = (2 * m + 1) * 2 ^ 24 := by
  have hd : uqdMag m n .midrise = (2 * m + 1) * 2 ^ (24 - n) := Nat.shiftLeft_eq _ _
  rw [hd, mul_assoc, ← pow_add, Nat.sub_add_cancel hn']

/-- Rounding `2b / D` for an odd `D` to the nearest integer has no tie: the sum `2b + D` that the
division halves is odd (R54). -/
theorem round_div_odd {b p D d : Nat} (hD : D + 1 = 2 * p)
    (hd : d = (2 * b + D) / (2 * D)) : ((2 * d * D : Nat) - (2 * b : Nat) : Int).natAbs < D := by
  have hlow : 2 * D * d ≤ 2 * b + D := hd ▸ Nat.mul_div_le _ _
  have hhigh : 2 * b + D < 2 * D * (d + 1) :=
    hd ▸ Nat.lt_mul_div_succ _ (by omega)
  rw [show 2 * D * (d + 1) = 2 * (d * D) + 2 * D by ring] at hhigh
  rw [show 2 * D * d = 2 * (d * D) by ring] at hlow
  rw [mul_assoc]
  omega

/-- Midtread reconstruction is nearer than half a unit to `2M / (2^n - 1)` (R54). -/
theorem uqdMag_midtread_near {n : Nat} (m : Nat) (hn : 1 ≤ n) :
    (2 * (uqdMag m n .midtread : Int) * ((2 ^ n - 1 : Nat) : Int) - m * 2 ^ 26).natAbs
      < 2 ^ n - 1 := by
  have hpow := two_pow_eq_two_mul_pred hn
  have hpos := Nat.two_pow_pos (n - 1)
  have hd : uqdMag m n .midtread = (2 * (m * 2 ^ 25) + (2 ^ n - 1)) / (2 * (2 ^ n - 1)) := by
    show (m * 2 ^ 26 + (2 ^ n - 1)) / (2 ^ (n + 1) - 2) = _
    congr 1 <;> omega
  have hnear := round_div_odd (p := 2 ^ (n - 1)) (by omega) hd
  push_cast at hnear ⊢
  convert hnear using 2
  ring

/-- Settles O24: midrise scales by a power of two, and midtread rounds an odd denominator. -/
theorem reconstructionIsNearest : Obligations.ReconstructionIsNearest := by
  intro n m hn hn' hm
  have hlt : m < 2 ^ (n - 1) := by
    have := Nat.two_pow_pos (n - 1)
    omega
  have hnear := uqdMag_midtread_near m (n := n) (by omega)
  rw [Nat.cast_pred (Nat.two_pow_pos n), Nat.cast_pow, Nat.cast_ofNat] at hnear
  exact ⟨uqdMag_midrise_mul m hn', uqdMag_lt .midrise hn hn' hlt, hnear,
    uqdMag_lt .midtread hn hn' hlt⟩

/-! ### The round trip (R56) -/

/-- A distance of two magnitudes, scaled. -/
theorem natAbs_sub_mul (a b c : Nat) :
    ((a : Int) - b).natAbs * c = ((a * c : Nat) - (b * c : Nat) : Int).natAbs := by
  rw [Nat.cast_mul, Nat.cast_mul, ← sub_mul, Int.natAbs_mul, Int.natAbs_natCast]

/-- The middle of a midrise bin is within half a step of every magnitude in the bin (R56). -/
theorem midrise_roundTrip (k : Nat) {n : Nat} (hn : 1 ≤ n) (hn' : n ≤ 24) :
    ((uqdMag (uqeBin k n .midrise) n .midrise : Int) - k).natAbs * 2 ^ n ≤ 2 ^ 24 := by
  have hvalue := uqdMag_midrise_mul (uqeBin k n .midrise) hn'
  have hbin : uqeBin k n .midrise = 2 ^ (n - 1) * k / 2 ^ 24 := uqeBin_midrise k n
  have hscaled : k * 2 ^ n = 2 * (2 ^ (n - 1) * k) := by
    rw [two_pow_eq_two_mul_pred hn]
    ring
  rw [natAbs_sub_mul, hvalue, hscaled, hbin]
  omega

/-- The rounded level of a midtread bin is within half a step and half a unit of every magnitude in
the bin (R56). -/
theorem midtread_roundTrip (k : Nat) {n : Nat} (hn : 1 ≤ n) :
    2 * ((uqdMag (uqeBin k n .midtread) n .midtread : Int) - k).natAbs * (2 ^ n - 1)
      ≤ 2 ^ 25 + (2 ^ n - 1) := by
  have hnear := uqdMag_midtread_near (uqeBin k n .midtread) hn
  have hbin : uqeBin k n .midtread = ((2 ^ n - 1) * k + 2 ^ 24) / 2 ^ 25 := uqeBin_midtread k n
  generalize 2 ^ n - 1 = D at *
  generalize uqdMag (uqeBin k n .midtread) n .midtread = d at *
  rw [mul_assoc, ← Nat.cast_mul] at hnear
  rw [mul_assoc, natAbs_sub_mul, Nat.mul_comm k D]
  omega

/-- A value reconstructed with a word's own sign is as far from the word as the magnitudes are from
each other. -/
theorem natAbs_decoded_sub {w : Word} {n m : Nat} {sch : Scheme} (hn : 2 ≤ n) (hn' : n ≤ 24)
    (hm : m < 2 ^ (n - 1)) :
    ((BitVec.ofInt 32 (signed (decide (w.toInt < 0)) (uqdMag m n sch))).toInt - w.toInt).natAbs =
      ((uqdMag m n sch : Int) - w.toInt.natAbs).natAbs := by
  rw [toInt_ofInt_signed _ (uqdMag_lt sch hn hn' hm), ← natAbs_signed_sub_signed, signed_natAbs]

/-- Settles O25: the decoder reads back the sign and the bin, so the error is that of the two
magnitudes. -/
theorem uniformRoundTripIsWithinHalfAStep : Obligations.UniformRoundTripIsWithinHalfAStep := by
  intro s n sch hn hn' hmaxr hk
  have hmag := uqeMag_unclipped (n := n) sch (by omega) hmaxr hk
  have hbin : uqeBin s.regs.opa.toInt.natAbs n sch < 2 ^ (n - 1) := by
    simpa only [hmag] using uqeMag_lt s.regs.opa.toInt.natAbs s.regs.maxr.toInt n sch
  refine ⟨_, _, exec_uqEnc_completes sch hn hn' (by omega) hmag,
    exec_uqDec_codeword sch hn hn' hbin rfl, rfl, rfl, rfl, ?_⟩
  simp only [State.complete_regs]
  rw [natAbs_decoded_sub hn hn' hbin]
  cases sch with
  | midrise =>
    have hstep := midrise_roundTrip s.regs.opa.toInt.natAbs (n := n) (by omega) hn'
    have hpow : 2 ^ (n - 1) ≤ 2 ^ n := Nat.pow_le_pow_right (by decide) (Nat.sub_le n 1)
    exact ⟨hstep, le_trans (Nat.mul_le_mul_left _ hpow) hstep⟩
  | midtread =>
    have hstep := midtread_roundTrip s.regs.opa.toInt.natAbs (n := n) (by omega)
    have hmax := two_pow_le_two_pow_24 hn'
    refine ⟨hstep, ?_⟩
    rw [mul_assoc] at hstep
    omega

end Sys2Proof.Machine

/-! PROOF. The leading-zero counter of 41_leading_zero_counter.md: the count is what `bitlen` leaves of
the magnitude bits (R58), so it finds the leading one and falls as the magnitude grows (R60). -/

namespace Sys2Proof.Machine

/-! ### The number of bits (R6) -/

theorem bitlen_zero : bitlen 0 = 0 := rfl

theorem bitlen_pos {x : Nat} (h : x ≠ 0) : 0 < bitlen x := by simp [bitlen, h]

theorem bitlen_le_iff {x p : Nat} : bitlen x ≤ p ↔ x < 2 ^ p := by
  unfold bitlen
  split_ifs with h
  · simp [h]
  · exact Nat.log2_lt h

theorem bitlen_mono {x y : Nat} (h : x ≤ y) : bitlen x ≤ bitlen y :=
  bitlen_le_iff.2 (h.trans_lt (bitlen_le_iff.1 le_rfl))

/-- The top bit that `bitlen` counts is set. -/
theorem testBit_bitlen_pred {x : Nat} (h : x ≠ 0) : x.testBit (bitlen x - 1) = true := by
  obtain ⟨hlow, hhigh⟩ := bitlen_spec h
  exact Nat.testBit_of_two_pow_le_and_two_pow_add_one_gt hlow
    (by rwa [Nat.sub_add_cancel (bitlen_pos h)])

/-- The bits above those that `bitlen` counts are clear. -/
theorem testBit_of_bitlen_le {x j : Nat} (h : bitlen x ≤ j) : x.testBit j = false :=
  Nat.testBit_lt_two_pow (bitlen_le_iff.1 h)

/-! ### The count (R58, R60) -/

/-- The count is what `bitlen` leaves of the `r - 1` magnitude bits, at magnitude 0 too (R58). -/
theorem lzcCount_eq (mag r : Nat) : lzcCount mag r = r - 1 - bitlen mag := by
  unfold lzcCount
  split_ifs with h
  · rw [h, bitlen_zero, Nat.sub_zero]
  · have := bitlen_pos h
    omega

theorem lzcCount_antitone {mag mag' : Nat} (r : Nat) (h : mag ≤ mag') :
    lzcCount mag' r ≤ lzcCount mag r := by
  rw [lzcCount_eq, lzcCount_eq]
  exact Nat.sub_le_sub_left (bitlen_mono h) (r - 1)

/-- The position below the zeros counted is that of the leading one (R58). -/
theorem leadingBit_eq {mag r : Nat} (h0 : mag ≠ 0) (hmag : mag < 2 ^ (r - 1)) :
    r - 2 - lzcCount mag r = bitlen mag - 1 := by
  have hlen : bitlen mag ≤ r - 1 := bitlen_le_iff.2 hmag
  have hpos := bitlen_pos h0
  rw [lzcCount_eq]
  omega

/-! ### What the command delivers (R59) -/

/-- `LZC` with a legal width and a magnitude of that width completes with the count (R59). -/
theorem exec_lzc_completes {r : Nat} {s : State} (hr : 2 ≤ r) (hr' : r ≤ 24)
    (hmag : s.regs.opa.toNat < 2 ^ (r - 1)) :
    exec (.lzc r) s = .next (s.complete
      { res0 := BitVec.ofNat 32 (lzcCount s.regs.opa.toNat r)
        res1 := 0
        res2 := 0
        sat := false
        denorm := false }) := by
  rw [exec_lzc, leadingZeros_ok ((widthLegal_iff r).2 ⟨hr, hr'⟩) hmag, State.finish_ok, zext32_eq]

/-- The count of a legal width is the number its register holds (R58, R59). -/
theorem toNat_ofNat_lzcCount {r : Nat} (mag : Nat) (hr : 2 ≤ r) (hr' : r ≤ 24) :
    (BitVec.ofNat 32 (lzcCount mag r)).toNat = lzcCount mag r := by
  have hlt := lzcCount_lt mag hr
  exact toNat_zext32 (by omega)

/-- Settles O11: below the zeros counted stands the top bit of `bitlen`, and above it all bits are
clear. -/
theorem lzcResult : Obligations.LzcResult := by
  intro s r hr hr' hmag
  have hlt := lzcCount_lt s.regs.opa.toNat hr
  refine ⟨lzcCount s.regs.opa.toNat r, exec_lzc_completes hr hr' hmag, by omega, by omega,
    fun hzero => ?_, fun hne => ?_⟩
  · rw [hzero]
    rfl
  · have h0 : s.regs.opa.toNat ≠ 0 := fun h => hne (BitVec.eq_of_toNat_eq h)
    have hpos := bitlen_pos h0
    rw [leadingBit_eq h0 hmag]
    refine ⟨?_, testBit_bitlen_pred h0, fun j hj _ => testBit_of_bitlen_le (by omega)⟩
    rw [lzcCount_eq]
    omega

/-- Settles O26: a larger magnitude has no fewer bits, so no more zeros stand above them. -/
theorem leadingZeroCountIsMonotone : Obligations.LeadingZeroCountIsMonotone := by
  intro s s' r hr hr' hle hmag
  refine ⟨_, _, exec_lzc_completes hr hr' (hle.trans_lt hmag), exec_lzc_completes hr hr' hmag,
    rfl, rfl, ?_⟩
  simp only [State.complete_regs, toNat_ofNat_lzcCount _ hr hr']
  exact lzcCount_antitone r hle

end Sys2Proof.Machine

/-! PROOF. The floating-point quantizer of 42_floating_point_quantizer.md: the bucket of magnitudes that
share a scale and mantissa bits ties normalization (R62) to reconstruction (R64); on it stand what both
commands deliver (R63, R66), the literal decode steps (R65) and the round trip (R67). -/

namespace Sys2Proof.Machine

/-! ### Codewords (R53, R61) -/

/-- The full resolution of a legal configuration has a sign bit and a magnitude bit (R61). -/
theorem two_le_fullWidth {rs rm : Nat} (hrs : 1 ≤ rs) (hrm : 1 ≤ rm) : 2 ≤ fullWidth rs rm := by
  have hE := two_le_two_pow hrs
  show 2 ≤ 2 ^ rs - 1 + rm
  omega

/-- Below the sign bit of a codeword stands its magnitude, at width 1 too. -/
theorem codeword_mod {n m : Nat} (sign : Bool) (hm : m < 2 ^ (n - 1)) :
    codeword n sign m % 2 ^ (n - 1) = m := by
  rw [codeword_eq sign hm]
  cases sign <;> simp [Nat.mod_eq_of_lt hm]

/-- A number of `n` bits is the codeword of its top bit and of the bits below it. -/
theorem codeword_codeSign_mod {n c : Nat} (hn : 1 ≤ n) (hc : c < 2 ^ n) :
    codeword n (codeSign n c) (c % 2 ^ (n - 1)) = c := by
  have hpow := two_pow_eq_two_mul_pred hn
  rw [codeword_eq _ (Nat.mod_lt _ (Nat.two_pow_pos _)), codeSign_eq hn hc]
  by_cases h : 2 ^ (n - 1) ≤ c
  · rw [decide_eq_true h, if_pos rfl, Nat.mod_eq_sub_mod h, Nat.mod_eq_of_lt (by omega)]
    omega
  · simp [h, Nat.mod_eq_of_lt (not_le.1 h)]

/-- A signed magnitude other than 0 is negative exactly when its sign says so. -/
theorem signed_neg_iff {m : Nat} (sign : Bool) (hm : 0 < m) : signed sign m < 0 ↔ sign = true := by
  cases sign <;> simp [signed, hm]

/-- A register that holds a signed value below 1.0 holds 0 or has the value's sign (R67). -/
theorem ofInt_signed_eq_zero_or {m : Nat} (sign : Bool) (hm : m < 2 ^ 24) :
    BitVec.ofInt 32 (signed sign m) = 0 ∨
      ((BitVec.ofInt 32 (signed sign m)).toInt < 0 ↔ sign = true) := by
  rcases Nat.eq_zero_or_pos m with rfl | hpos
  · exact .inl (by simp [signed])
  · exact .inr (by rw [toInt_ofInt_signed sign hm, signed_neg_iff sign hpos])

/-! ### The bucket of a scale and mantissa bits (R62, R64) -/

/-- The mantissa bits below the leading one that a scale above 0 implies; scale 0 implies none (R64). -/
def significand (rm scale ml : Nat) : Nat := if scale = 0 then ml else 2 ^ (rm - 1) + ml

/-- The bit just below the kept bits: the middle of a bucket of more than one magnitude (R64). -/
def midpoint (scale : Nat) : Nat := if 2 ≤ scale then 2 ^ (scale - 2) else 0

/-- The magnitude `a` of a codeword lies in the bucket of `scale` and of the mantissa bits `ml`: the
bits from bit `scale - 1` up are those of the significand. -/
structure InBucket (rs rm a scale ml : Nat) : Prop where
  lt : a < 2 ^ (fullWidth rs rm - 1)
  bits_lt : ml < 2 ^ (rm - 1)
  kept : a / 2 ^ (scale - 1) = significand rm scale ml

theorem two_pow_leading {rm scale : Nat} (hrm : 1 ≤ rm) (hscale : 1 ≤ scale) :
    2 ^ (rm + scale - 2) = 2 ^ (scale - 1) * 2 ^ (rm - 1) := by
  rw [← pow_add]
  congr 1
  omega

theorem two_pow_above_leading {rm scale : Nat} (hrm : 1 ≤ rm) (hscale : 1 ≤ scale) :
    2 ^ (rm + scale - 1) = 2 * 2 ^ (rm + scale - 2) := by
  rw [← pow_succ']
  congr 1
  omega

/-- The buckets of a scale above 0 hold the magnitudes with the leading one at bit
`rm - 2 + scale` (R62). -/
theorem InBucket.leading {rs rm a scale ml : Nat} (h : InBucket rs rm a scale ml) (hrm : 1 ≤ rm)
    (hscale : 1 ≤ scale) : 2 ^ (rm + scale - 2) ≤ a ∧ a < 2 ^ (rm + scale - 1) := by
  have hkept : a / 2 ^ (scale - 1) = 2 ^ (rm - 1) + ml := by
    rw [h.kept, significand, if_neg (by omega)]
  have hbits := h.bits_lt
  rw [two_pow_above_leading hrm hscale, two_pow_leading hrm hscale]
  constructor
  · rw [Nat.mul_comm, ← Nat.le_div_iff_mul_le (Nat.two_pow_pos _)]
    omega
  · rw [Nat.mul_left_comm, Nat.mul_comm, ← Nat.div_lt_iff_lt_mul (Nat.two_pow_pos _)]
    omega

/-- Normalization names the bucket of the magnitude, whose scale is at most `E` (R62). -/
theorem InBucket.flpNormalize_eq {rs rm a scale ml : Nat} (h : InBucket rs rm a scale ml) (neg : Bool)
    (hrs : 1 ≤ rs) (hrm : 1 ≤ rm) :
    scale ≤ maxScale rs ∧
      flpNormalize (codeword (fullWidth rs rm) neg a) rs rm = (scale, codeword rm neg ml) := by
  have hkept := h.kept
  unfold significand at hkept
  split_ifs at hkept with h0
  · subst h0
    obtain rfl : a = ml := by simpa using hkept
    exact ⟨Nat.zero_le _, flpNormalize_denormalized neg hrs hrm h.bits_lt⟩
  · obtain ⟨hlow, hhigh⟩ := h.leading hrm (by omega)
    obtain ⟨hle, hcode⟩ := flpNormalize_normalized neg hrs hrm (by omega) h.lt hlow hhigh
    rw [hkept, Nat.add_mod_left, Nat.mod_eq_of_lt h.bits_lt] at hcode
    exact ⟨hle, hcode⟩

/-- A magnitude of at most `rm - 1` bits is alone in a bucket of scale 0 (R62). -/
theorem inBucket_denormalized {rs rm a : Nat} (hrs : 1 ≤ rs) (ha : a < 2 ^ (rm - 1)) :
    InBucket rs rm a 0 a where
  lt := by
    have hE := two_le_two_pow hrs
    have hwidth : fullWidth rs rm = 2 ^ rs - 1 + rm := rfl
    exact ha.trans_le (Nat.pow_le_pow_right (by decide) (by omega))
  bits_lt := ha
  kept := by simp [significand]

/-- The bucket of a magnitude with its leading one at bit `rm - 2 + scale` (R62). -/
theorem inBucket_normalized {rs rm a scale : Nat} (hrm : 1 ≤ rm) (hscale : 1 ≤ scale)
    (ha : a < 2 ^ (fullWidth rs rm - 1)) (hlow : 2 ^ (rm + scale - 2) ≤ a)
    (hhigh : a < 2 ^ (rm + scale - 1)) :
    InBucket rs rm a scale ((a - 2 ^ (rm + scale - 2)) / 2 ^ (scale - 1)) := by
  have hlead := two_pow_leading hrm hscale
  have hdouble := two_pow_above_leading hrm hscale
  have hkept : 2 ^ (rm - 1) ≤ a / 2 ^ (scale - 1) := by
    rw [Nat.le_div_iff_mul_le (Nat.two_pow_pos _), Nat.mul_comm, ← hlead]
    exact hlow
  refine ⟨ha, ?_, ?_⟩
  · rw [Nat.div_lt_iff_lt_mul (Nat.two_pow_pos _), Nat.mul_comm, ← hlead]
    omega
  · rw [significand, if_neg (by omega), hlead, Nat.sub_mul_div, Nat.add_sub_cancel' hkept]

/-- Every magnitude of the full resolution lies in a bucket (R62). -/
theorem exists_inBucket {rs rm a : Nat} (hrs : 1 ≤ rs) (hrm : 1 ≤ rm)
    (ha : a < 2 ^ (fullWidth rs rm - 1)) : ∃ scale ml, InBucket rs rm a scale ml := by
  rcases lt_or_ge a (2 ^ (rm - 1)) with hden | hnorm
  · exact ⟨0, a, inBucket_denormalized hrs hden⟩
  · have hpos := Nat.two_pow_pos (rm - 1)
    obtain ⟨hlow, hhigh⟩ := bitlen_spec (x := a) (by omega)
    have hlen : rm - 1 < bitlen a := not_le.1 fun h => not_lt.2 hnorm (bitlen_le_iff.1 h)
    refine ⟨bitlen a + 1 - rm, _, inBucket_normalized hrm (by omega) ha ?_ ?_⟩
    · rwa [show rm + (bitlen a + 1 - rm) - 2 = bitlen a - 1 by omega]
    · rwa [show rm + (bitlen a + 1 - rm) - 1 = bitlen a by omega]

/-! ### The reconstructed magnitude (R64) -/

/-- The magnitude of R64 is the significand with the midpoint bit below it. -/
theorem flpMagnitude_eq_significand {rm : Nat} (scale mantissa : Nat) (hrm : 1 ≤ rm) :
    flpMagnitude scale mantissa rm =
      2 ^ (scale - 1) * significand rm scale (mantissa % 2 ^ (rm - 1)) + midpoint scale := by
  rw [flpMagnitude_eq scale mantissa hrm, significand, midpoint]
  by_cases h0 : scale = 0
  · simp [h0]
  · rw [if_neg h0, if_neg h0, two_pow_leading hrm (by omega)]
    ring

theorem midpoint_of_le_one {scale : Nat} (h : scale ≤ 1) : midpoint scale = 0 := if_neg (by omega)

theorem midpoint_of_two_le {scale : Nat} (h : 2 ≤ scale) : midpoint scale = 2 ^ (scale - 2) :=
  if_pos h

/-- The midpoint of a bucket is half its size, and 0 where the bucket holds one magnitude (R64). -/
theorem midpoint_cases (scale : Nat) :
    (midpoint scale = 0 ∧ 2 ^ (scale - 1) = 1) ∨
      (0 < midpoint scale ∧ 2 ^ (scale - 1) = 2 * midpoint scale) := by
  rcases Nat.lt_or_ge scale 2 with h | h
  · exact .inl ⟨midpoint_of_le_one (by omega), by rw [show scale - 1 = 0 by omega, pow_zero]⟩
  · rw [midpoint_of_two_le h]
    exact .inr ⟨Nat.two_pow_pos _, two_pow_eq_two_mul_pred (by omega)⟩

/-- Only the bits below the sign bit of the mantissa count (R64). -/
theorem flpMagnitude_codeword {rm ml : Nat} (scale : Nat) (neg : Bool) (hrm : 1 ≤ rm)
    (hml : ml < 2 ^ (rm - 1)) :
    flpMagnitude scale (codeword rm neg ml) rm = flpMagnitude scale ml rm := by
  rw [flpMagnitude_eq _ _ hrm, flpMagnitude_eq _ _ hrm, codeword_mod neg hml, Nat.mod_eq_of_lt hml]

/-- Reconstruction moves the sign of the mantissa to the sign bit of the codeword (R64). -/
theorem flpCode_codeword {rm ml : Nat} (scale rs : Nat) (neg : Bool) (hrm : 1 ≤ rm)
    (hml : ml < 2 ^ (rm - 1)) :
    flpCode scale (codeword rm neg ml) rs rm =
      codeword (fullWidth rs rm) neg (flpMagnitude scale ml rm) := by
  have hsign : (codeword rm neg ml).testBit (rm - 1) = neg := codeSign_codeword neg hml
  rw [flpCode_eq, hsign, flpMagnitude_codeword scale neg hrm hml]

/-- The reconstructed magnitude lies in the bucket it stands for (R64). -/
theorem inBucket_flpMagnitude {rs rm scale ml : Nat} (hrs : 1 ≤ rs) (hrm : 1 ≤ rm)
    (hscale : scale ≤ maxScale rs) (hml : ml < 2 ^ (rm - 1)) :
    InBucket rs rm (flpMagnitude scale ml rm) scale ml where
  lt := flpMagnitude_lt ml hrs hrm hscale
  bits_lt := hml
  kept := by
    have hpos := Nat.two_pow_pos (scale - 1)
    have hmid : midpoint scale < 2 ^ (scale - 1) := by
      rcases midpoint_cases scale with ⟨hmid, -⟩ | ⟨hmid, hsize⟩ <;> omega
    rw [flpMagnitude_eq_significand scale ml hrm, Nat.mod_eq_of_lt hml, Nat.mul_add_div hpos,
      Nat.div_eq_of_lt hmid, Nat.add_zero]

/-- The reconstructed magnitude is at most half a bucket from every magnitude of its bucket (R67). -/
theorem InBucket.natAbs_flpMagnitude_sub_le {rs rm a scale ml : Nat} (h : InBucket rs rm a scale ml)
    (hrm : 1 ≤ rm) : ((flpMagnitude scale ml rm : Int) - a).natAbs ≤ midpoint scale := by
  have hsum := Nat.div_add_mod a (2 ^ (scale - 1))
  have hlow := Nat.mod_lt a (Nat.two_pow_pos (scale - 1))
  rw [h.kept] at hsum
  rw [flpMagnitude_eq_significand scale ml hrm, Nat.mod_eq_of_lt h.bits_lt]
  rcases midpoint_cases scale with ⟨hmid, hsize⟩ | ⟨hmid, hsize⟩ <;> omega

/-- In a bucket of scale 0 or 1 the magnitude is reconstructed as it was (R64). -/
theorem InBucket.flpMagnitude_eq_of_le_one {rs rm a scale ml : Nat} (h : InBucket rs rm a scale ml)
    (hrm : 1 ≤ rm) (hscale : scale ≤ 1) : flpMagnitude scale ml rm = a := by
  have hnear := h.natAbs_flpMagnitude_sub_le hrm
  rw [midpoint_of_le_one hscale] at hnear
  omega

/-- Magnitudes of one bucket agree from bit `scale - 1` up (R64). -/
theorem InBucket.testBit_eq {rs rm a b scale ml j : Nat} (ha : InBucket rs rm a scale ml)
    (hb : InBucket rs rm b scale ml) (hj : scale - 1 ≤ j) : a.testBit j = b.testBit j := by
  have hkept := congrArg (Nat.testBit · (j - (scale - 1))) (ha.kept.trans hb.kept.symm)
  simpa only [Nat.testBit_div_two_pow, Nat.sub_add_cancel hj] using hkept

/-- Settles O30: the magnitude and its reconstruction lie in one bucket. -/
theorem reconstructionKeepsTheLeadingBits : Obligations.ReconstructionKeepsTheLeadingBits := by
  intro rs rm a neg hrs hrm _ ha r sm c
  have hr : 2 ≤ r := two_le_fullWidth hrs hrm
  obtain ⟨scale, ml, hbucket⟩ := exists_inBucket hrs hrm ha
  obtain ⟨hscale, hsm : sm = _⟩ := hbucket.flpNormalize_eq neg hrs hrm
  have hrec := inBucket_flpMagnitude hrs hrm hscale hbucket.bits_lt
  have hc : c = codeword r neg (flpMagnitude scale ml rm) := by
    show flpCode sm.1 sm.2 rs rm = _
    rw [hsm]
    exact flpCode_codeword scale rs neg hrm hbucket.bits_lt
  have hmag : codeMag r c = flpMagnitude scale ml rm := hc ▸ codeMag_codeword neg hr hrec.lt
  rw [hmag, hsm]
  exact ⟨hc ▸ codeword_lt neg (by omega) hrec.lt, hc ▸ codeSign_codeword neg hrec.lt,
    hbucket.flpMagnitude_eq_of_le_one hrm, fun _ _ => hrec.testBit_eq hbucket⟩

/-! ### The literal decode steps (R65) -/

/-- The literal step 4 appends the `rm - 1` mantissa bits to the code. -/
theorem or_mantissa_eq {rm x : Nat} (mantissa : Nat) :
    x <<< (rm - 1) ||| (mantissa &&& (2 ^ (rm - 1) - 1)) =
      x * 2 ^ (rm - 1) + mantissa % 2 ^ (rm - 1) := by
  rw [Nat.and_two_pow_sub_one_eq_mod,
    ← Nat.shiftLeft_add_eq_or_of_lt (Nat.mod_lt _ (Nat.two_pow_pos _)), Nat.shiftLeft_eq]

/-- The literal steps 3 and 5 append a 1 to the code. -/
theorem shiftLeft_one_or_one (x : Nat) : x <<< 1 ||| 1 = 2 * x + 1 := by
  rw [← Nat.shiftLeft_add_eq_or_of_lt (by decide), Nat.shiftLeft_eq, Nat.mul_comm, pow_one]

/-- After step 4 the marker stands at bit `z + rm`, above the leading one and the mantissa bits. -/
theorem marked_eq {rm ml : Nat} (z : Nat) (hrm : 1 ≤ rm) :
    (2 * 2 ^ z + 1) * 2 ^ (rm - 1) + ml = 2 ^ (z + rm) + (2 ^ (rm - 1) + ml) := by
  rw [pow_add, two_pow_eq_two_mul_pred hrm]
  ring

/-- The midpoint bit of the literal step 5 lengthens the code by one bit. -/
theorem bitlen_padded {rm ml : Nat} (z : Nat) (hrm : 1 ≤ rm) (hml : ml < 2 ^ (rm - 1)) :
    bitlen (2 * (2 ^ (z + rm) + (2 ^ (rm - 1) + ml)) + 1) = z + rm + 2 := by
  have hpow := two_pow_eq_two_mul_pred hrm
  have hle : 2 ^ rm ≤ 2 ^ (z + rm) := Nat.pow_le_pow_right (by decide) (by omega)
  have h1 : 2 ^ (z + rm + 1) = 2 * 2 ^ (z + rm) := pow_succ' 2 _
  have h2 : 2 ^ (z + rm + 1 + 1) = 2 * 2 ^ (z + rm + 1) := pow_succ' 2 _
  exact bitlen_eq (by omega) (by omega)

/-- The literal steps put their marker at bit `R - 1`, just above the magnitude of R64 (R65). -/
theorem flpMarkedCode_eq {rs rm scale : Nat} (mantissa : Nat) (hrm : 1 ≤ rm)
    (hscale : scale ≤ maxScale rs) :
    flpMarkedCode scale mantissa rs rm =
      2 ^ (fullWidth rs rm - 1) + flpMagnitude scale mantissa rm := by
  have hml : mantissa % 2 ^ (rm - 1) < 2 ^ (rm - 1) := Nat.mod_lt _ (Nat.two_pow_pos _)
  obtain ⟨z, hz⟩ := Nat.exists_eq_add_of_le hscale
  have hE : 2 ^ rs - 1 - scale = z := by
    show maxScale rs - scale = z
    omega
  have hwidth : fullWidth rs rm = scale + z + rm := hz ▸ rfl
  rw [flpMagnitude_eq_significand scale mantissa hrm, significand, midpoint]
  simp only [flpMarkedCode, or_mantissa_eq, shiftLeft_one_or_one, hE, Nat.one_shiftLeft, hwidth]
  generalize mantissa % 2 ^ (rm - 1) = ml at hml ⊢
  match scale with
  | 0 =>
    have hmarker : 2 ^ (0 + z + rm - 1) = 2 ^ z * 2 ^ (rm - 1) := by
      rw [← pow_add]
      congr 1
      omega
    rw [hmarker]
    simp
  | 1 =>
    simpa [show 1 + z + rm - 1 = z + rm by omega] using marked_eq z hrm
  | k + 2 =>
    have hmarker : 2 ^ (k + 2 + z + rm - 1) = 2 * 2 ^ (z + rm) * 2 ^ k := by
      rw [← pow_succ', ← pow_add]
      congr 1
      omega
    have hlead : 2 ^ (k + 1) = 2 * 2 ^ k := pow_succ' 2 k
    simp only [ne_eq, Nat.add_eq_zero_iff, OfNat.ofNat_ne_zero, and_false, not_false_eq_true,
      if_true, if_false, Nat.one_lt_succ_succ, marked_eq z hrm, bitlen_padded z hrm hml, hmarker,
      Nat.shiftLeft_eq, show k + 2 + z + rm - (z + rm + 2) = k by omega, Nat.le_add_left,
      Nat.add_sub_cancel, show k + 2 - 1 = k + 1 by omega, hlead]
    ring

/-- Settles O29: the marker stands just above the magnitude of R64, and the mask removes it. -/
theorem literalDecodeStepsAgree : Obligations.LiteralDecodeStepsAgree := by
  intro rs rm scale mantissa hrs hrm _ hscale _
  have hr := two_le_fullWidth hrs hrm
  have hlt := flpMagnitude_lt mantissa hrs hrm hscale
  have hmarked := flpMarkedCode_eq mantissa hrm hscale
  have hpow := two_pow_eq_two_mul_pred (n := fullWidth rs rm) (by omega)
  have hlen : fullWidth rs rm - 1 + 1 = fullWidth rs rm := by omega
  have hbitlen : bitlen (flpMarkedCode scale mantissa rs rm) = fullWidth rs rm - 1 + 1 :=
    bitlen_eq (by omega) (by rw [hlen]; omega)
  refine ⟨hbitlen.trans hlen, ?_, hlt⟩
  rw [flpMagnitudeLiteral, hmarked, Nat.and_two_pow_sub_one_eq_mod, Nat.add_mod_left,
    Nat.mod_eq_of_lt hlt]

/-! ### What the commands deliver (R63, R66) -/

/-- `UQE_MAG` at `max_range` 1.0 in plain arithmetic: it saturates from 1.0 on and clips nothing below
(R51, R63). -/
theorem uqeMag_one (k : Nat) {n : Nat} (hn : 1 ≤ n) :
    uqeMag k (2 ^ 24) n .midtread =
      (if 2 ^ 24 ≤ k then 2 ^ (n - 1) - 1 else ((2 ^ n - 1) * k + 2 ^ 24) / 2 ^ 25,
        decide (2 ^ 24 ≤ k)) := by
  by_cases hk : 2 ^ 24 ≤ k
  · rw [uqeMag_saturated n .midtread (by omega), if_pos hk, decide_eq_true hk]
    rfl
  · rw [uqeMag_unclipped .midtread hn (by omega) (not_le.1 hk), uqeBin_midtread, if_neg hk,
      decide_eq_false hk]

/-- `FLP.ENC` completes with the scale and the mantissa bits of the bucket its magnitude code lies in,
and with the sign of its operand (R63). -/
theorem exec_flpEnc_completes {s : State} {rs rm scale ml : Nat} {m : Nat × Bool}
    (hlegal : flpLegal rs rm = true)
    (hm : uqeMag s.regs.opa.toInt.natAbs (2 ^ 24) (fullWidth rs rm) .midtread = m)
    (hbucket : InBucket rs rm m.1 scale ml) :
    exec (.flpEnc rs rm) s = .next (s.complete
      { res0 := BitVec.ofNat 32 scale
        res1 := BitVec.ofNat 32 (codeword rm (decide (s.regs.opa.toInt < 0)) ml)
        res2 := BitVec.ofNat 32 (codeword (fullWidth rs rm) (decide (s.regs.opa.toInt < 0)) m.1)
        sat := m.2
        denorm := scale == 0 }) := by
  obtain ⟨hrs, hrm, -⟩ := (flpLegal_iff rs rm).1 hlegal
  have hsign : signOf s.regs.opa = decide (s.regs.opa.toInt < 0) := by
    rw [signOf, sint32_eq_toInt]
  have hmag : uqeMag (magnitudeOf s.regs.opa) (2 ^ Config.fb) (fullWidth rs rm) .midtread = m := by
    rw [magnitudeOf, sint32_eq_toInt]
    exact hm
  rw [exec_flpEnc, flpEncode_ok s.regs.opa hlegal hmag rfl, hsign,
    (hbucket.flpNormalize_eq _ hrs hrm).2]
  rfl

/-- `FLP.DEC` completes with the reconstructed magnitude and the sign of the mantissa (R66). -/
theorem exec_flpDec_completes {s : State} {rs rm scale ml : Nat} {neg : Bool}
    (hlegal : flpLegal rs rm = true) (hscale : scale ≤ maxScale rs) (hml : ml < 2 ^ (rm - 1))
    (hopa : s.regs.opa = BitVec.ofNat 32 scale)
    (hopb : s.regs.opb = BitVec.ofNat 32 (codeword rm neg ml)) :
    exec (.flpDec rs rm) s = .next (s.complete
      { res0 := BitVec.ofInt 32
          (signed neg (uqdMag (flpMagnitude scale ml rm) (fullWidth rs rm) .midtread))
        res1 := BitVec.ofNat 32 (codeword (fullWidth rs rm) neg (flpMagnitude scale ml rm))
        res2 := 0
        sat := false
        denorm := scale == 0 }) := by
  obtain ⟨hrs, hrm, hwidth⟩ := (flpLegal_iff rs rm).1 hlegal
  have hmax := two_pow_le_two_pow_24 (n := rm) (by omega)
  have hcode := codeword_lt neg hrm hml
  have hE : maxScale rs = 2 ^ rs - 1 := rfl
  have hscaleNat : s.regs.opa.toNat = scale := hopa ▸ toNat_zext32 (by omega)
  have hmantissa : s.regs.opb.toNat = codeword rm neg ml :=
    hopb ▸ toNat_ofNat_codeword neg hrm (by omega) hml
  have hlt := flpMagnitude_lt ml hrs hrm hscale
  have hc : flpCode s.regs.opa.toNat s.regs.opb.toNat rs rm =
      codeword (fullWidth rs rm) neg (flpMagnitude scale ml rm) := by
    rw [hscaleNat, hmantissa]
    exact flpCode_codeword scale rs neg hrm hml
  rw [exec_flpDec, flpDecode_ok hlegal (by omega) (by omega) hc, codeSign_codeword neg hlt,
    codeMag_codeword neg (two_le_fullWidth hrs hrm) hlt, hscaleNat]
  rfl

/-- Settles O12: a small magnitude code lies in the bucket of scale 0, and a saturated one is not
small. -/
theorem flpEncDenormalizedResult : Obligations.FlpEncDenormalizedResult := by
  intro s rs rm hrs hrm hwidth r k neg a ha
  have hr : 2 ≤ r := two_le_fullWidth hrs hrm
  have hbucket := inBucket_denormalized hrs ha
  have hmag : uqeMag k (2 ^ 24) r .midtread = (a, decide (2 ^ 24 ≤ k)) := uqeMag_one k (by omega)
  have hsat : ¬ 2 ^ 24 ≤ k := fun hk => by
    have hmax : a = maxMag (fullWidth rs rm) := if_pos hk
    have hge := maxMag_fullWidth_ge hrs hrm
    omega
  rw [exec_flpEnc_completes ((flpLegal_iff rs rm).2 ⟨hrs, hrm, hwidth⟩) hmag hbucket,
    codeword_eq neg ha, codeword_eq neg hbucket.lt, decide_eq_false hsat]
  rfl

/-- Settles O13: the leading one names the scale, and the bits below it the bucket. -/
theorem flpEncNormalizedResult : Obligations.FlpEncNormalizedResult := by
  intro s rs rm scale hrs hrm hwidth r k neg a hscale hlow hhigh
  have hr : 2 ≤ r := two_le_fullWidth hrs hrm
  have hmag : uqeMag k (2 ^ 24) r .midtread = (a, decide (2 ^ 24 ≤ k)) := uqeMag_one k (by omega)
  have ha : a < 2 ^ (r - 1) := by
    have := uqeMag_lt k (2 ^ 24) r .midtread
    rwa [hmag] at this
  have hbucket := inBucket_normalized hrm hscale ha hlow hhigh
  have hzero : (scale == 0) = false := beq_eq_false_iff_ne.2 (by omega)
  refine ⟨?_, (hbucket.flpNormalize_eq neg hrs hrm).1⟩
  rw [exec_flpEnc_completes ((flpLegal_iff rs rm).2 ⟨hrs, hrm, hwidth⟩) hmag hbucket,
    codeword_eq neg hbucket.bits_lt, codeword_eq neg hbucket.lt, hzero]
  rfl

/-- Settles O14: the mantissa is the codeword of its sign and mantissa bits. -/
theorem flpDecResult : Obligations.FlpDecResult := by
  intro s rs rm hrs hrm hwidth hscale hmantissa r sc ml neg m d
  have hml : ml < 2 ^ (rm - 1) := Nat.mod_lt _ (Nat.two_pow_pos _)
  have hlt : s.regs.opb.toNat < 2 ^ rm := by
    have := Nat.two_pow_pos rm
    omega
  have hneg : codeSign rm s.regs.opb.toNat = neg := codeSign_eq hrm hlt
  have hcode : codeword rm neg ml = s.regs.opb.toNat := hneg ▸ codeword_codeSign_mod hrm hlt
  have hm : flpMagnitude sc ml rm = m := by
    rw [flpMagnitude_eq sc ml hrm, Nat.mod_eq_of_lt hml]
  rw [exec_flpDec_completes (scale := sc) (neg := neg) ((flpLegal_iff rs rm).2 ⟨hrs, hrm, hwidth⟩)
      hscale hml (zext32_toNat _).symm (hcode.symm ▸ (zext32_toNat _).symm),
    codeword_eq neg (flpMagnitude_lt ml hrs hrm hscale), hm]
  rfl

/-- Settles O28: the scale and the mantissa are those of the bucket the magnitude code lies in. -/
theorem floatingCodeFitsItsWidths : Obligations.FloatingCodeFitsItsWidths := by
  intro s rs rm hrs hrm hwidth
  have hr := two_le_fullWidth hrs hrm
  have hmag := uqeMag_one s.regs.opa.toInt.natAbs (n := fullWidth rs rm) (by omega)
  have ha := uqeMag_lt s.regs.opa.toInt.natAbs (2 ^ 24) (fullWidth rs rm) .midtread
  rw [hmag] at ha
  obtain ⟨scale, ml, hbucket⟩ := exists_inBucket hrs hrm ha
  refine ⟨_, exec_flpEnc_completes ((flpLegal_iff rs rm).2 ⟨hrs, hrm, hwidth⟩) hmag hbucket,
    rfl, ?_⟩
  set neg := decide (s.regs.opa.toInt < 0)
  have hscale : scale ≤ 2 ^ rs - 1 := (hbucket.flpNormalize_eq neg hrs hrm).1
  have hres0 : (BitVec.ofNat 32 scale).toNat = scale := by
    have := two_pow_le_two_pow_24 (n := 2 ^ rs - 1 + rm) hwidth
    exact toNat_zext32 (by omega)
  have hres2 := toNat_ofNat_codeword neg (by omega) (show fullWidth rs rm ≤ 24 from hwidth) ha
  simp only [State.complete_regs, hres0, hres2, decide_eq_true_eq, beq_iff_eq,
    toNat_ofNat_codeword neg hrm (show rm ≤ 24 by omega) hbucket.bits_lt, BitVec.toNat_eq]
  exact ⟨hscale, Nat.le_sub_one_of_lt (codeword_lt neg hrm hbucket.bits_lt),
    codeword_lt neg (by omega) ha, Iff.rfl, trivial, codeSign_codeword neg hbucket.bits_lt⟩

/-! ### The round trip (R67) -/

theorem maxMag_lt (n : Nat) : maxMag n < 2 ^ (n - 1) := Nat.sub_lt (Nat.two_pow_pos _) one_pos

/-- A level of a code at most `δ` codes from the bin of a magnitude is within `δ + 1/2` steps and half
a unit of the magnitude (R67). -/
theorem midtread_near_bin {n m δ : Nat} (k : Nat) (hn : 1 ≤ n)
    (hδ : ((m : Int) - uqeBin k n .midtread).natAbs ≤ δ) :
    ((uqdMag m n .midtread : Int) - k).natAbs * (2 * (2 ^ n - 1))
      ≤ (2 * δ + 1) * 2 ^ 25 + (2 ^ n - 1) := by
  have hnear := uqdMag_midtread_near m hn
  have hbin := uqeBin_midtread k n
  generalize 2 ^ n - 1 = D at *
  generalize uqdMag m n .midtread = d at *
  rw [mul_assoc, ← Nat.cast_mul] at hnear
  rw [Nat.mul_left_comm, natAbs_sub_mul, Nat.mul_comm k D]
  omega

/-- The magnitude bits of the register that holds a codeword. -/
theorem toNat_ofNat_codeword_emod {n m : Nat} (sign : Bool) (hn : 1 ≤ n) (hn' : n ≤ 24)
    (hm : m < 2 ^ (n - 1)) :
    ((BitVec.ofNat 32 (codeword n sign m)).toNat : Int) % 2 ^ (n - 1) = m := by
  rw [toNat_ofNat_codeword sign hn hn' hm]
  exact_mod_cast codeword_mod sign hm

/-- Settles O31: the bin of the value and the reconstructed magnitude lie in one bucket. -/
theorem floatingRoundTripBound : Obligations.FloatingRoundTripBound := by
  intro s rs rm hrs hrm hwidth hk
  have hlegal := (flpLegal_iff rs rm).2 ⟨hrs, hrm, hwidth⟩
  have hn : 2 ≤ fullWidth rs rm := two_le_fullWidth hrs hrm
  have hn' : fullWidth rs rm ≤ 24 := hwidth
  have hmag := uqeMag_unclipped (n := fullWidth rs rm) (mr := 2 ^ 24) .midtread (by omega)
    (by omega) hk
  have ha : uqeBin s.regs.opa.toInt.natAbs (fullWidth rs rm) .midtread < 2 ^ (fullWidth rs rm - 1) :=
    (uqeBin_le_maxMag .midtread (by omega) hk).trans_lt (maxMag_lt _)
  obtain ⟨scale, ml, hbucket⟩ := exists_inBucket hrs hrm ha
  have hscale := (hbucket.flpNormalize_eq false hrs hrm).1
  have hlt := flpMagnitude_lt ml hrs hrm hscale
  have hnear := hbucket.natAbs_flpMagnitude_sub_le hrm
  refine ⟨_, _, exec_flpEnc_completes hlegal hmag hbucket,
    exec_flpDec_completes hlegal hscale hbucket.bits_lt rfl rfl, rfl, rfl, ?_⟩
  intro r sc a m e
  have hsc : sc = scale := by
    have hE : maxScale rs = 2 ^ rs - 1 := rfl
    have := two_pow_le_two_pow_24 hn'
    exact toNat_zext32 (by omega)
  have haBin : a = _ := toNat_ofNat_codeword_emod _ (by omega) hn' ha
  have hmRec : m = _ := toNat_ofNat_codeword_emod _ (by omega) hn' hlt
  have he : e = _ := natAbs_decoded_sub hn hn' hlt
  have herr : e * (2 * (2 ^ r - 1)) ≤ (2 * midpoint scale + 1) * 2 ^ 25 + (2 ^ r - 1) :=
    he ▸ midtread_near_bin s.regs.opa.toInt.natAbs (by omega) hnear
  rw [← haBin, ← hmRec] at hnear
  rw [hsc]
  refine ⟨fun hle => ?_, fun hge => ?_, ?_⟩
  · rw [midpoint_of_le_one hle] at hnear herr
    exact ⟨by omega, by omega⟩
  · have hsize : 2 ^ (scale - 1) = 2 * 2 ^ (scale - 2) := two_pow_eq_two_mul_pred (by omega)
    rw [midpoint_of_two_le hge] at hnear herr
    rw [hsize]
    exact ⟨hnear, herr⟩
  · simpa only [State.complete_regs, decide_eq_true_eq] using
      ofInt_signed_eq_zero_or (decide (s.regs.opa.toInt < 0)) (uqdMag_lt .midtread hn hn' hlt)

/-! ### Every pair is produced (R66) -/

/-- A level is encoded to its own code, since its rounding is far smaller than half a step (R66). -/
theorem uqeBin_uqdMag {n : Nat} (m : Nat) (hn : 1 ≤ n) (hn' : n ≤ 24) :
    uqeBin (uqdMag m n .midtread) n .midtread = m := by
  have hnear := uqdMag_midtread_near m hn
  have hmax := two_pow_le_two_pow_24 hn'
  have hD : 2 ^ n - 1 < 2 ^ 24 := by omega
  rw [uqeBin_midtread]
  generalize 2 ^ n - 1 = D at *
  generalize uqdMag m n .midtread = d at *
  rw [mul_assoc, ← Nat.cast_mul, Nat.mul_comm d D] at hnear
  omega

/-- The least magnitude other than 0 still has magnitude code 0 (R63). -/
theorem uqeBin_one {n : Nat} (hn' : n ≤ 24) : uqeBin 1 n .midtread = 0 := by
  have hmax := two_pow_le_two_pow_24 hn'
  rw [uqeBin_midtread]
  omega

/-- Every midtread code is the bin of a magnitude below 1.0 that a value of either sign has (R66). -/
theorem exists_pos_uqeBin_eq {n m : Nat} (hn : 2 ≤ n) (hn' : n ≤ 24) (hm : m < 2 ^ (n - 1)) :
    ∃ k, 0 < k ∧ k < 2 ^ 24 ∧ uqeBin k n .midtread = m := by
  have hbin := uqeBin_uqdMag m (n := n) (by omega) hn'
  rcases Nat.eq_zero_or_pos (uqdMag m n .midtread) with hzero | hpos
  · have hmono := uqeBin_mono n .midtread (Nat.zero_le 1)
    rw [hzero] at hbin
    rw [hbin, uqeBin_one hn'] at hmono
    exact ⟨1, by decide, by decide, by rw [uqeBin_one hn']; omega⟩
  · exact ⟨_, hpos, uqdMag_lt .midtread hn hn' hm, hbin⟩

/-- Settles O32: the reconstruction of the pair lies in its bucket, and it is the bin of a value of
either sign. -/
theorem everyPairIsProduced : Obligations.EveryPairIsProduced := by
  intro s rs rm scale mantissa hrs hrm hwidth hscale hmantissa
  have hlegal := (flpLegal_iff rs rm).2 ⟨hrs, hrm, hwidth⟩
  have hn : 2 ≤ fullWidth rs rm := two_le_fullWidth hrs hrm
  have hn' : fullWidth rs rm ≤ 24 := hwidth
  have hlt : mantissa < 2 ^ rm := by
    have := Nat.two_pow_pos rm
    omega
  obtain ⟨m, hbucket⟩ : ∃ m, InBucket rs rm m scale (mantissa % 2 ^ (rm - 1)) :=
    ⟨_, inBucket_flpMagnitude hrs hrm hscale (Nat.mod_lt _ (Nat.two_pow_pos _))⟩
  obtain ⟨k, hpos, hk, hbin⟩ := exists_pos_uqeBin_eq hn hn' hbucket.lt
  have hw : (BitVec.ofInt 32 (signed (codeSign rm mantissa) k)).toInt = _ := toInt_ofInt_signed _ hk
  have hneg : decide (signed (codeSign rm mantissa) k < 0) = codeSign rm mantissa := by
    simp [signed_neg_iff _ hpos]
  have hmag : uqeMag (BitVec.ofInt 32 (signed (codeSign rm mantissa) k)).toInt.natAbs (2 ^ 24)
      (fullWidth rs rm) .midtread = (m, false) := by
    rw [hw, natAbs_signed, uqeMag_unclipped .midtread (by omega) (by omega) hk, hbin]
  refine ⟨BitVec.ofInt 32 (signed (codeSign rm mantissa) k), _,
    exec_flpEnc_completes hlegal hmag hbucket, rfl, ?_, ?_⟩
  · have := two_pow_le_two_pow_24 hn'
    exact toNat_zext32 (by omega)
  · simp only [State.complete_regs, hw, hneg, codeword_codeSign_mod hrm hlt]
    have := two_pow_le_two_pow_24 (n := rm) (by omega)
    exact toNat_zext32 (by omega)

end Sys2Proof.Machine

/-! PROOF. The errors of 60_exceptions.md: the first check that fails names the outcome of a command
word (R69, R70), the two ends of a command (R71, R72, R74), and refused accesses (R79). -/

namespace Sys2Proof.Machine

/-! ### What the checks of a command find (R69, R70) -/

/-- A width that R70 does not refuse passes the check of R49. -/
theorem widthLegal_of_not {n : Nat} (h : ¬ (n < 2 ∨ 24 < n)) : widthLegal n = true := by
  rw [widthLegal_iff]
  omega

/-- A configuration that R70 does not refuse passes the check of R61. -/
theorem flpLegal_of_not {rs rm : Nat} (h : ¬ (rs < 1 ∨ rm < 1 ∨ 24 < 2 ^ rs - 1 + rm)) :
    flpLegal rs rm = true := by
  rw [flpLegal_iff]
  omega

/-- A domain error is what a command with a legal configuration delivers (R69, R70). -/
theorem instrResult_of_domainError {i : Instr} {r : Regs} (hparam : ¬ parameterError i r)
    (hdomain : domainError i r) : instrResult i r.maxr r.opa r.opb = .error .domainViolation := by
  cases i with
  | uqEnc nb sch => exact hdomain.elim
  | uqDec nb sch => exact uqDecode_domain sch (widthLegal_of_not hparam) hdomain
  | lzc nb => exact leadingZeros_domain (widthLegal_of_not hparam) hdomain
  | flpEnc rs rm => exact hdomain.elim
  | flpDec rs rm => exact flpDecode_domain (flpLegal_of_not hparam) hdomain

/-- A command with neither error completes (R70, R72). -/
theorem instrResult_of_no_error {i : Instr} {r : Regs} (hparam : ¬ parameterError i r)
    (hdomain : ¬ domainError i r) : ∃ c, instrResult i r.maxr r.opa r.opb = .ok c := by
  cases i with
  | uqEnc nb sch =>
    have hlegal : ¬ ((nb < 2 ∨ 24 < nb) ∨ r.maxr.toInt ≤ 0) := mt or_assoc.1 hparam
    obtain ⟨hwidth, hrange⟩ := not_or.1 hlegal
    exact ⟨_, uqEncode_ok sch r.opa (widthLegal_of_not hwidth)
      (by rwa [sint32_eq_toInt, ← not_le])⟩
  | uqDec nb sch => exact ⟨_, uqDecode_ok sch (widthLegal_of_not hparam) (not_le.1 hdomain)⟩
  | lzc nb => exact ⟨_, leadingZeros_ok (widthLegal_of_not hparam) (not_le.1 hdomain)⟩
  | flpEnc rs rm => exact ⟨_, flpEncode_ok r.opa (flpLegal_of_not hparam) rfl rfl⟩
  | flpDec rs rm =>
    obtain ⟨hscale, hmantissa⟩ := not_or.1 hdomain
    exact ⟨_, flpDecode_ok (flpLegal_of_not hparam) (not_lt.1 hscale) (not_lt.1 hmantissa) rfl⟩

/-- What a command word delivers: the error of the first check that fails, in the order of R69, or a
completion. -/
theorem commandResult_cases (v : Word) (r : Regs) :
    ((∀ i, decode v ≠ .ok i) ∧
      commandResult v r.maxr r.opa r.opb = .error .illegalCommand) ∨
    ∃ i, decode v = .ok i ∧
      ((parameterError i r ∧ commandResult v r.maxr r.opa r.opb = .error .invalidParameter) ∨
        (¬ parameterError i r ∧ domainError i r ∧
          commandResult v r.maxr r.opa r.opb = .error .domainViolation) ∨
        (¬ parameterError i r ∧ ¬ domainError i r ∧
          ∃ c, commandResult v r.maxr r.opa r.opb = .ok c)) := by
  cases hdecode : decode v with
  | error e =>
    obtain rfl := decode_error hdecode
    exact .inl ⟨by simp, commandResult_of_decode_error hdecode _ _ _⟩
  | ok i =>
    refine .inr ⟨i, rfl, ?_⟩
    rw [commandResult_of_decode_ok hdecode]
    by_cases hparam : parameterError i r
    · exact .inl ⟨hparam, instrResult_of_parameterError hparam⟩
    · by_cases hdomain : domainError i r
      · exact .inr (.inl ⟨hparam, hdomain, instrResult_of_domainError hparam hdomain⟩)
      · exact .inr (.inr ⟨hparam, hdomain, instrResult_of_no_error hparam hdomain⟩)

/-- Settles O15: the first check that fails decides what the word delivers, and each error has a code
of its own. -/
theorem errorsOfEveryCommand : Obligations.ErrorsOfEveryCommand := by
  intro v s
  refine ⟨_, execute_eq_finish v s, ?_⟩
  rcases commandResult_cases v s.regs with ⟨hillegal, hresult⟩ |
    ⟨i, hdecode, ⟨hparam, hresult⟩ | ⟨hparam, hdomain, hresult⟩ | ⟨hparam, hdomain, c, hresult⟩⟩ <;>
    rw [hresult]
  · simp [errorCode, hillegal]
  · simp [errorCode, hdecode, hparam]
  · simp [errorCode, hdecode, hparam, hdomain]
  · simp [hdecode, hparam, hdomain]

/-! ### The two ends of a command (R71, R72, R74) -/

/-- Settles O16: a command that completes has code 0, and one that raises an error writes the flags
of R71 alone. -/
theorem errorChangesExactlyTheFlags : Obligations.ErrorChangesExactlyTheFlags := by
  intro v s t h herr
  rw [execute_eq_finish] at h
  cases h
  rcases s.finish_cases (commandResult v s.regs.maxr s.regs.opa s.regs.opb) with
    ⟨c, -, hend⟩ | ⟨e, -, hend⟩ <;> rw [hend] at herr ⊢
  · exact absurd rfl herr
  · rfl

/-- Settles O17: the end of a command leaves its operands and what is outside the registers, and it is
a completion or an error as a whole. -/
theorem everyCommandErrsOrCompletes : Obligations.EveryCommandErrsOrCompletes := by
  intro v s
  obtain ⟨r, hrun⟩ := execute_finishes v s
  obtain ⟨hin, hbase, hbus, hreplies, hmaxr, hopa, hopb, hcmd⟩ := s.finish_frame r
  refine ⟨_, hrun, hin, hbase, hbus, hreplies, hmaxr, hopa, hopb, hcmd, ?_⟩
  rcases s.finish_cases r with ⟨c, -, hend⟩ | ⟨e, -, hend⟩ <;> rw [hend]
  · exact .inl ⟨rfl, rfl⟩
  · exact .inr ⟨errorCode_ne_zero e, rfl, rfl, rfl, rfl, rfl, rfl⟩

/-! ### Refused accesses (R79) -/

/-- Settles O40: `BASE` is a multiple of 4, so an access that is not aligned is not aligned in the
window, and the bus error response leaves the registers. -/
theorem busErrorChangesNoRegister : Obligations.BusErrorChangesNoRegister := by
  intro s rest addr size v hin hbus hlow hhigh _ hwrong
  have hbase := s.base_eq
  exact ⟨_, step_refused hin hbus (by omega) (by omega) (by omega), rfl, rfl, rfl, rfl⟩

end Sys2Proof.Machine

/-! PROOF. Resets and host programs of 70_reset_and_hazards.md: the reset state (R83), both resets
(R84, R85), the first command after reset (R86) and a host program run to its end (R89). -/

namespace Sys2Proof.Machine

/-! ### Both resets (R83 to R85) -/

/-- The release of the reset input puts the registers in their reset state (R85). -/
theorem State.driveReset_false_of_inReset {s : State} (h : s.inReset = true) :
    s.driveReset false = { s with regs := Regs.reset, inReset := false } := by
  rw [State.driveReset_false, if_pos h]

/-- A write of `CTRL` with bit 0 set is the soft reset (R30, R84). -/
theorem writeRegister_ctrl_of_bit {v : Word} (h : v.getLsbD 0 = true) (s : State) :
    writeRegister (some .ctrl) v s = .next s.softReset := by
  rw [writeRegister, if_pos h]

/-- An access while the reset input is asserted stops the model (R85, log entry 6). -/
theorem step_accessInReset {s : State} {addr size : Nat} {v : Word} {rest : List Event}
    (hin : s.inReset = true)
    (hbus : s.bus = .read addr size :: rest ∨ s.bus = .write addr size v :: rest) :
    step s = .fault .accessInReset := by
  have hroute : route (s.withBus rest) addr size = .inReset := if_pos hin
  rcases hbus with hbus | hbus <;> rw [step_cons hbus]
  · simp only [answer, hostRead, hroute]
  · simp only [answer, hostWrite, hroute]

/-- Settles O37: all three resets give the same registers, which are those of R83. -/
theorem resetStateIsAsGiven : Obligations.ResetStateIsAsGiven := by
  refine ⟨rfl, State.softReset_regs, fun s hin => ?_, rfl, rfl, rfl⟩
  rw [State.driveReset_false_of_inReset hin]
  rfl

/-- Settles O38: the step is the write of `CTRL`, which is the soft reset and no command. -/
theorem softResetRestoresEveryRegister : Obligations.SoftResetRestoresEveryRegister := by
  intro s rest v hin hbus hbit
  have hstep := step_write (r := .ctrl) hin hbus
  exact hstep.trans (writeRegister_ctrl_of_bit hbit _)

/-- Settles O39: a change of the reset input is answered whether or not it is asserted, and an access
meanwhile is routed nowhere. -/
theorem hardwareResetHoldsAndReleases : Obligations.HardwareResetHoldsAndReleases := by
  refine ⟨?asserted, ?released, ?access⟩
  case asserted =>
    intro s rest hbus
    rw [step_cons hbus, answer, State.driveReset_true]
    rfl
  case released =>
    intro s rest hin hbus
    have hin' : (s.withBus rest).inReset = true := hin
    rw [step_cons hbus, answer, State.driveReset_false_of_inReset hin']
    rfl
  case access =>
    intro s rest addr size v hin hbus
    exact step_accessInReset hin hbus

/-- Settles O46: the reset registers meet the invariant. -/
theorem resetIsConsistent : Obligations.ResetIsConsistent :=
  State.reset.consistent_iff.2 Regs.reset_consistent

/-! ### The first command after reset (R86) -/

/-- The decoder reads a 32-bit table word as the command word it is (R27, R40). -/
theorem decodeTableWord_toNat (v : Word) : decodeTableWord 32 v.toNat = (decode v).toOption := by
  simp only [decodeTableWord, decodeBytes, wordOfBytes_byteLane, Nat.mod_eq_of_lt v.isLt,
    BitVec.ofNat_toNat, BitVec.setWidth_eq]

/-- The host's store of a command word, byte by byte, is the access `st.w CMD, v` (R27, R47). -/
theorem State.commandStore_eq_stW (s : State) (v : Word) : s.commandStore v = stW s .cmd v := by
  rw [State.commandStore, wordOfBytes_byteLane, stW]

/-- A command word placed as the next access stands before the pending ones as `st.w CMD, v` (R11,
R47). -/
theorem State.withFetchWord_toNat_bus (s : State) (v : Word) :
    (s.withFetchWord 32 v.toNat).bus = stW s .cmd v :: s.bus := by
  rw [State.withFetchWord_bus, Nat.mod_eq_of_lt v.isLt, BitVec.ofNat_toNat, BitVec.setWidth_eq,
    State.commandStore_eq_stW]

/-- Settles O8: the word decodes to its command, and the placed access is the write of `CMD` that runs
a decoded command. -/
theorem anyCommandRunsFirstAfterReset : Obligations.AnyCommandRunsFirstAfterReset := by
  intro i hwf
  have hdecode : decode (encode i) = .ok i := decodeOfEncodeIsTheCommand i hwf
  have hbus := State.reset.withFetchWord_toNat_bus (encode i)
  obtain ⟨-, hstep⟩ := stepRunsTheDecodedCommand _ (encode i) i [] rfl hbus hdecode
  refine ⟨?_, hstep⟩
  rw [decodeTableWord_toNat, hdecode]
  rfl

/-! ### A host program run to its end (R89) -/

/-- With no access pending AQC idles (R89, log entry 2). -/
theorem step_idle {s : State} (h : s.bus = []) : step s = .next s := by
  rw [step, h]

/-- A run over orderly accesses takes them all and gives each one answer, no bus error (R28, R89). -/
theorem run_orderly (accesses : List Event) : ∀ s : State, s.inReset = false →
    (∀ e ∈ accesses, e.orderly s.base = true) → s.bus = accesses →
    ∃ (t : State) (answers : List Reply),
      Host.Core.run Sys2Proof.core accesses.length s = .next t ∧ t.bus = [] ∧
      t.inReset = false ∧ t.baseBlock = s.baseBlock ∧
      t.replies = s.replies ++ answers ∧ answers.length = accesses.length ∧
      .busError ∉ answers := by
  induction accesses with
  | nil =>
    intro s hin _ hbus
    exact ⟨s, [], run_zero s, hbus, hin, rfl, (List.append_nil _).symm, rfl, List.not_mem_nil⟩
  | cons e rest ih =>
    intro s hin horderly hbus
    obtain ⟨u, a, hstep, hin', hbus', hreplies, ha⟩ :=
      step_orderly hin (horderly e List.mem_cons_self) hbus
    have hblock : u.baseBlock = s.baseBlock := step_baseBlock hstep
    have hrest : ∀ e' ∈ rest, e'.orderly u.base = true := fun e' he' =>
      (base_congr hblock).symm ▸ horderly e' (List.mem_cons_of_mem e he')
    obtain ⟨t, answers, hrun, htbus, htin, htblock, htreplies, hlength, hnone⟩ :=
      ih u hin' hrest hbus'
    refine ⟨t, a :: answers, (run_succ hstep rest.length).trans hrun, htbus, htin,
      htblock.trans hblock, ?_, congrArg (· + 1) hlength, ?_⟩
    · rw [htreplies, hreplies, List.append_assoc, List.singleton_append]
    · exact List.not_mem_cons_of_ne_of_not_mem ha.symm hnone

/-- Settles O50: the run takes every pending access, and with none left AQC idles. -/
theorem hostProgramRunsToItsEnd : Obligations.HostProgramRunsToItsEnd := by
  rintro s ⟨hin, horderly⟩
  obtain ⟨t, answers, hrun, hbus, htin, hblock, hreplies, hlength, hnone⟩ :=
    run_orderly s.bus s hin horderly rfl
  exact ⟨t, answers, hrun, hbus, htin, hblock, hreplies, hlength, hnone, step_idle hbus⟩

end Sys2Proof.Machine
